-- ==== Sys2Proof/Word.lean ====
section
/-! DEFINITION. The word types of the CAN ID/frame codec: a byte, an identifier word, the two port bundles'
widths. Every number of the spec is unsigned (spec/00_scope.md R12). -/

namespace Sys2Proof

/-- A byte: an unsigned number 0..255 (spec/00_scope.md R13; the 8 bits are the spec's general knowledge, log 11). -/
abbrev Byte := BitVec 8

/-- An identifier word or a filter mask: an unsigned 32-bit number (spec/10_state.md R33). -/
abbrev Word := BitVec 32

/-- A request bundle as the port carries it: 141 bits, bit 0 least significant (spec/30_encoding.md R65). -/
abbrev ReqBundle := BitVec 141

end Sys2Proof
end

