-- ==== Sys2Proof/Config.lean ====
section
/-! DEFINITION. The constants the spec fixes (spec/00_scope.md R8, R9) and the values it takes for the parameters the
source leaves open (R10). The block has no configuration at run time (spec/10_state.md R24). The two FRDEC parameters
of R10 are fixed to true by spec/42_frame.md R131 and R132 and are therefore written into FRDEC's meaning, not here
(log 8). No value is left open by the spec as a result of an operation, so Config holds no free value. -/

namespace Sys2Proof.Config

/-- CAN_ID_MASK: mask of the 29-bit value field, bits 28..0 (R8). -/
abbrev canIdMask : Nat := 0x1FFFFFFF

/-- CAN_ID_EXTENDED (EXT_BIT), `1<<29` (R8). -/
def canIdExtended : Word := 0x20000000#32

/-- CAN_ID_REMOTE (RTR_BIT), `1<<30` (R8). -/
def canIdRemote : Word := 0x40000000#32

/-- CAN_ID_EXTENDED_MAX: largest legal extended identifier value (R8). -/
abbrev extendedMax : Nat := 0x1FFFFFFF

/-- CAN_ID_STANDARD_MAX: largest legal standard identifier value (R8). -/
abbrev standardMax : Nat := 0x7FF

/-- MAX_PAYLOAD: largest payload length in bytes (R8). -/
abbrev maxPayload : Nat := 8

/-- ID_WORD_BYTES: bytes of an encoded identifier word (R8). -/
abbrev idWordBytes : Nat := 4

/-- MAX_FRAME_BYTES = ID_WORD_BYTES + MAX_PAYLOAD (R9). -/
abbrev maxFrameBytes : Nat := idWordBytes + maxPayload

/-- INBUF_CAP: bytes the input buffer port carries (R10; D5). -/
abbrev inbufCap : Nat := 12

/-- The largest length the 8-bit INLEN port can say (R10; spec/30_encoding.md R65). -/
abbrev inlenMax : Nat := 255

end Sys2Proof.Config
end

