-- ==== Sys2Proof/Syntax.lean ====
section
/-! DEFINITION. The instructions: the seven operations of spec/30_encoding.md R66, one constructor per row of
spec/opcode_table.json, each with the request fields that R69 says the operation reads and with no other field. -/

namespace Sys2Proof

/-- The input buffer as the port carries it (spec/30_encoding.md R65): its length INLEN, and the bytes carried, which
are the first min(INLEN, 12) bytes of the requester's buffer. -/
structure InBuf where
  inlen : BitVec 8
  bytes : List Byte
  deriving DecidableEq, Repr

/-- One constructor per operation. `val`, `ext`, `rtr` are the port fields VAL, EXT, RTR as they stand; `buf` is
INLEN and INBUF. How they form an operand is spec/30_encoding.md R70 (Machine/Operands.lean). -/
inductive Instr where
  /-- IDNEW, validating identifier constructor (spec/40_identifier.md R80). -/
  | idnew (val : BitVec 32) (ext rtr : Bool)
  /-- IDENC, identifier to word bytes (spec/40_identifier.md R83). -/
  | idenc (val : BitVec 32) (ext rtr : Bool)
  /-- IDDEC, word bytes to identifier (spec/40_identifier.md R86). -/
  | iddec (buf : InBuf)
  /-- MASK, filter-mask word (spec/41_filter_mask.md R100). -/
  | mask (val : BitVec 32) (ext rtr : Bool)
  /-- FRNEW, validating frame constructor (spec/42_frame.md R120). -/
  | frnew (val : BitVec 32) (ext rtr : Bool) (buf : InBuf)
  /-- FRENC, frame to buffer (spec/42_frame.md R124). -/
  | frenc (val : BitVec 32) (ext rtr : Bool) (buf : InBuf)
  /-- FRDEC, buffer to frame (spec/42_frame.md R130). -/
  | frdec (buf : InBuf)
  deriving DecidableEq, Repr

end Sys2Proof
end

