-- ==== Sys2Proof/WellFormed.lean ====
section
/-! DEFINITION. Which terms of Instr are requests the port can carry. The one check is that an input buffer carries
exactly the first min(INLEN, 12) bytes (spec/30_encoding.md R65); every value of every other field is legal (R72). -/

namespace Sys2Proof

/-- The buffer carries as many bytes as its length says, at most 12. -/
def InBuf.wellFormed (b : InBuf) : Bool :=
  b.bytes.length == min b.inlen.toNat Config.inbufCap

/-- An instruction is well formed when its input buffer, if it has one, is. -/
def Instr.wellFormed : Instr → Bool
  | .idnew _ _ _ => true
  | .idenc _ _ _ => true
  | .iddec buf => buf.wellFormed
  | .mask _ _ _ => true
  | .frnew _ _ _ buf => buf.wellFormed
  | .frenc _ _ _ buf => buf.wellFormed
  | .frdec buf => buf.wellFormed

end Sys2Proof
end

