-- ==== Sys2Proof/Decode.lean ====
section
/-! DEFINITION. The request bundle's fields (spec/30_encoding.md R65), the decoder (R66, R69: each operation takes the
fields it reads and ignores the others, R72), and after it the encoder. The decoder is total on 141-bit bundles and
rejects the one reserved operation by name (R71). -/

namespace Sys2Proof

/-- Why a bundle selects no operation. -/
inductive DecodeError where
  /-- OP = 0b111 (spec/30_encoding.md R71). -/
  | reservedOperation
  deriving DecidableEq, Repr

/-- OP, bits 2..0. -/
def opField (b : ReqBundle) : BitVec 3 := b.extractLsb' 0 3

/-- VAL, bits 34..3. -/
def valField (b : ReqBundle) : BitVec 32 := b.extractLsb' 3 32

/-- EXT, bit 35. -/
def extField (b : ReqBundle) : Bool := b.getLsbD 35

/-- RTR, bit 36. -/
def rtrField (b : ReqBundle) : Bool := b.getLsbD 36

/-- INLEN, bits 44..37. -/
def inlenField (b : ReqBundle) : BitVec 8 := b.extractLsb' 37 8

/-- INBUF[k], bits 52+8k..45+8k. -/
def inbufByte (b : ReqBundle) (k : Nat) : Byte := b.extractLsb' (45 + 8 * k) 8

/-- The input buffer: INLEN and the first min(INLEN, 12) bytes of INBUF; the other bytes "are not carried and no
operation reads them" (R65). -/
def inBufField (b : ReqBundle) : InBuf :=
  { inlen := inlenField b
    bytes := (List.range (min (inlenField b).toNat Config.inbufCap)).map (inbufByte b) }

/-- The operation the bundle selects, with the fields that operation reads (R66, R69); 0b111 is reserved (R71). -/
def decode (b : ReqBundle) : Except DecodeError Instr :=
  match (opField b).toNat with
  | 0 => .ok (.idnew (valField b) (extField b) (rtrField b))
  | 1 => .ok (.idenc (valField b) (extField b) (rtrField b))
  | 2 => .ok (.iddec (inBufField b))
  | 3 => .ok (.mask (valField b) (extField b) (rtrField b))
  | 4 => .ok (.frnew (valField b) (extField b) (rtrField b) (inBufField b))
  | 5 => .ok (.frenc (valField b) (extField b) (rtrField b) (inBufField b))
  | 6 => .ok (.frdec (inBufField b))
  | _ => .error .reservedOperation

/-- The bundle whose bits are `w` below bit `nbits` and 0 above (bit 0 least significant, R65; log 15). -/
def bundleOfTableWord (nbits w : Nat) : ReqBundle := BitVec.ofNat 141 (w % 2 ^ nbits)

/-- The instruction the decoder reads from a row of spec/opcode_table.json whose bits are `w`. -/
def decodeTableWord (nbits w : Nat) : Option Instr :=
  match decode (bundleOfTableWord nbits w) with
  | .ok i => some i
  | .error _ => none

/-! ## The encoder -/

/-- A field put at its place: its lowest bit at bit `lo` of the bundle. -/
def place {w : Nat} (field : BitVec w) (lo : Nat) : ReqBundle := field.setWidth 141 <<< lo

/-- Bytes side by side, the first at bit `lo`. -/
def placeBytes : List Byte → Nat → ReqBundle
  | [], _ => 0#141
  | b :: bs, lo => place b lo ||| placeBytes bs (lo + 8)

/-- One bundle from its fields (R65); INBUF bytes not given are 0 ("unused fields 0", spec/95_test_vectors.md
section 3). -/
def packRequest (op : BitVec 3) (val : BitVec 32) (ext rtr : Bool) (buf : InBuf) : ReqBundle :=
  place op 0 ||| place val 3 ||| place (BitVec.ofBool ext) 35 ||| place (BitVec.ofBool rtr) 36 |||
    place buf.inlen 37 ||| placeBytes buf.bytes 45

/-- A buffer field no operation reads, all zero. -/
def noBuffer : InBuf := { inlen := 0#8, bytes := [] }

/-- The bundle of an instruction (R65, R66), the fields it does not read being 0. -/
def encode : Instr → ReqBundle
  | .idnew val ext rtr => packRequest 0b000#3 val ext rtr noBuffer
  | .idenc val ext rtr => packRequest 0b001#3 val ext rtr noBuffer
  | .iddec buf => packRequest 0b010#3 0#32 false false buf
  | .mask val ext rtr => packRequest 0b011#3 val ext rtr noBuffer
  | .frnew val ext rtr buf => packRequest 0b100#3 val ext rtr buf
  | .frenc val ext rtr buf => packRequest 0b101#3 val ext rtr buf
  | .frdec buf => packRequest 0b110#3 0#32 false false buf

end Sys2Proof
end

