-- ==== Sys2Proof/Machine/Types.lean ====
section
/-! DEFINITION. The value types of spec/10_state.md section 3: identifier (any, so also a wire identifier), valid
identifier, frame, filter entry; and the outcome of an operation, a result or one of the two errors
(spec/60_exceptions.md R140, R141, R157). Equality of identifiers and of frames is equality of all fields (R31, R32),
which is what `=` on these structures is. -/

namespace Sys2Proof.Machine

/-- An identifier (spec/10_state.md R27). Its value fits 29 bits, so a wire identifier (R29) is any term of this type:
`extended = false` with a value above 0x7FF is one. -/
structure Identifier where
  value : BitVec 29
  extended : Bool
  remote : Bool
  deriving DecidableEq, Repr

/-- The range check of R28 on a value of any size: is `v` legal for the mode `e` selects? -/
def legalValue (v : Nat) (e : Bool) : Bool :=
  if e then decide (v ≤ Config.extendedMax) else decide (v ≤ Config.standardMax)

/-- A valid identifier (R28). -/
def Identifier.isValid (id : Identifier) : Bool := legalValue id.value.toNat id.extended

/-- The result type of the validating constructor (spec/40_identifier.md R82; D15): only IDNEW makes one. -/
structure ValidIdentifier where
  id : Identifier
  valid : id.isValid = true
  deriving DecidableEq, Repr

/-- A frame (spec/10_state.md R30): an identifier, valid or wire, and at most 8 payload bytes. -/
structure Frame where
  id : Identifier
  data : List Byte
  len_le : data.length ≤ Config.maxPayload
  deriving DecidableEq, Repr

/-- An acceptance filter entry (spec/10_state.md R34; spec/30_encoding.md R64). -/
structure FilterEntry where
  identifierWord : Word
  maskWord : Word
  deriving DecidableEq, Repr

/-- What an operation returns: a result, or an error, which carries its kind alone (spec/60_exceptions.md R140, R141,
R144; the length that the pseudocode writes beside LengthError is carried nowhere, log 14). -/
inductive Result (α : Type) where
  | ok (a : α)
  | rangeError
  | lengthError
  deriving DecidableEq, Repr

/-- Apply `f` to a result; an error stays itself. -/
def Result.map {α β : Type} (f : α → β) : Result α → Result β
  | .ok a => .ok (f a)
  | .rangeError => .rangeError
  | .lengthError => .lengthError

/-- Go on with a result; an error ends the operation (`raise`, spec/00_scope.md R15). -/
def Result.bind {α β : Type} (r : Result α) (f : α → Result β) : Result β :=
  match r with
  | .ok a => f a
  | .rangeError => .rangeError
  | .lengthError => .lengthError

end Sys2Proof.Machine
end

