-- ==== Sys2Proof/Machine/Response.lean ====
section
/-! DEFINITION. The response bundle (spec/30_encoding.md R67 to R69): its fields, each of which holds a value or holds
none, their places among the 165 bits, and reading one. -/

namespace Sys2Proof.Machine

/-- The error status (R68). -/
inductive ErrStatus where
  | ok
  | range
  | length
  deriving DecidableEq, Repr

/-- The 2-bit code of a status (R68); 0b11 is no status's code. -/
def ErrStatus.code : ErrStatus → BitVec 2
  | .ok => 0b00#2
  | .range => 0b01#2
  | .length => 0b10#2

/-- The status a code stands for; none for 0b11, "never produced" (R68). -/
def ErrStatus.ofCode (c : BitVec 2) : Option ErrStatus :=
  match c.toNat with
  | 0 => some .ok
  | 1 => some .range
  | 2 => some .length
  | _ => none

/-- A response bundle (R67). ERR always holds a value; `none` is "holds no value"; OBUF[k] holds a value exactly for
k below the list's length. -/
structure Response where
  err : ErrStatus
  oval : Option (BitVec 29)
  oext : Option Bool
  ortr : Option Bool
  oword : Option Word
  olen : Option (BitVec 4)
  obuf : List Byte
  deriving DecidableEq, Repr

/-- The fields of the bundle by name. -/
inductive Field where
  | err
  | oval
  | oext
  | ortr
  | oword
  | olen
  | obuf (k : Fin 12)
  deriving DecidableEq, Repr

/-- The lowest bit of a field (R67). -/
def Field.lo : Field → Nat
  | .err => 0
  | .oval => 2
  | .oext => 31
  | .ortr => 32
  | .oword => 33
  | .olen => 65
  | .obuf k => 69 + 8 * k.val

/-- The width of a field in bits (R67). -/
def Field.width : Field → Nat
  | .err => 2
  | .oval => 29
  | .oext => 1
  | .ortr => 1
  | .oword => 32
  | .olen => 4
  | .obuf _ => 8

/-- Every field, in the order of its bits. -/
def Field.all : List Field :=
  [.err, .oval, .oext, .ortr, .oword, .olen] ++ (List.finRange 12).map Field.obuf

/-- The unsigned number a field holds, or none where it holds no value (R67, R69). -/
def Response.read (r : Response) : Field → Option Nat
  | .err => some r.err.code.toNat
  | .oval => r.oval.map BitVec.toNat
  | .oext => r.oext.map Bool.toNat
  | .ortr => r.ortr.map Bool.toNat
  | .oword => r.oword.map BitVec.toNat
  | .olen => r.olen.map BitVec.toNat
  | .obuf k => r.obuf[k.val]?.map BitVec.toNat

/-- Bit `n` of the 165-bit vector, or none where the field it lies in holds no value, or no field has it (R67). -/
def Response.bit (r : Response) (n : Nat) : Option Bool :=
  match Field.all.find? (fun f => decide (f.lo ≤ n) && decide (n < f.lo + f.width)) with
  | some f => (r.read f).map (fun v => v.testBit (n - f.lo))
  | none => none

/-- A response in which only ERR holds a value. -/
def Response.bare (e : ErrStatus) : Response :=
  { err := e, oval := none, oext := none, ortr := none, oword := none, olen := none, obuf := [] }

/-- OVAL, OEXT and ORTR hold an identifier. -/
def Response.withIdentifier (id : Identifier) (r : Response) : Response :=
  { r with oval := some id.value, oext := some id.extended, ortr := some id.remote }

/-- OWORD holds a word. -/
def Response.withWord (w : Word) (r : Response) : Response := { r with oword := some w }

/-- OLEN and OBUF[0..OLEN-1] hold an output buffer. -/
def Response.withBuffer (b : List Byte) (r : Response) : Response :=
  { r with olen := some (BitVec.ofNat 4 b.length), obuf := b }

end Sys2Proof.Machine
end

