-- ==== Sys2Proof/Machine/State.lean ====
section
/-! DEFINITION. The state between two steps, the reasons a run can stop, and the state after reset. The block itself
has no state (spec/10_state.md R21 to R26): what stands here is on the requesters' side of its port, the requests in
progress and the responses the requesters hold (R37, R38, R39). -/

namespace Sys2Proof.Machine

/-- A request in progress: the requester that issued it, and its bundle. The number is the model's name for the
requester; the block never sees it (spec/60_exceptions.md R154). -/
structure Request where
  requester : Nat
  bundle : ReqBundle
  deriving DecidableEq, Repr

/-- A response that a requester holds (spec/10_state.md R37, R38), with the request it answers. `none` only where a
meaning ran with no request in progress, which `step` never does (log 5). -/
structure Delivery where
  request : Option Request
  response : Response
  deriving DecidableEq, Repr

/-- The requester a response went to: the one whose request it answers (spec/60_exceptions.md R149). -/
def Delivery.requester (d : Delivery) : Option Nat := d.request.map Request.requester

/-- The requests issued and not yet answered, in the order they are served: the arbitration's between requesters, the
order of issue for one requester (spec/10_state.md R37, R39, D18; log 2), and the responses delivered so far, oldest first (spec/95_test_vectors.md section 4; log 1). -/
structure State where
  requests : List Request
  responses : List Delivery
  deriving DecidableEq, Repr

/-- Why a requester's read faults (spec/60_exceptions.md R157). `step` raises none of these. -/
inductive Fault where
  /-- A requester reads a response field that holds no value, or reads a response before it has one (spec/30_encoding.md
  R67; spec/10_state.md R36). Raised by `readField`. Safe: the model gives no value where the spec gives none. -/
  | noValue (f : Field)
  /-- A requester reads the error code 0b11, which no response carries (spec/30_encoding.md R68;
  spec/93_implementation_defined.md section 1). Raised by `statusOfCode`. Safe: nothing goes on from it. -/
  | undefinedStatus
  deriving DecidableEq, Repr

/-- Why a step is refused. -/
inductive Refusal where
  /-- An instruction with no meaning in this model; raised by `exec`'s refused arms alone, of which there is none. Safe. -/
  | notModelled (mnemonic : String)
  /-- OP = 0b111 selects no operation: the model gives the request no response and the run is refused
  (spec/30_encoding.md R71). Raised by `step`. Safe: no claim about the run holds. -/
  | reservedOperation
  deriving DecidableEq, Repr

/-- After reset: no request is in progress (spec/70_reset_and_hazards.md R161) and no response field holds a value
(R160; spec/10_state.md R36; log 6). -/
def State.reset : State := { requests := [], responses := [] }

end Sys2Proof.Machine
end

