-- ==== Sys2Proof/Machine/Flags.lean ====
section
/-! DEFINITION. The only flags of the block are an identifier's `extended` and `remote` (spec/10_state.md R23): bits 29
and 30 of the identifier word (spec/30_encoding.md R60, R61). There are no condition codes. -/

namespace Sys2Proof.Machine

/-- `(e ? 0x20000000 : 0)` (R61). -/
def extendedBits (e : Bool) : Word := if e then Config.canIdExtended else 0#32

/-- `(r ? 0x40000000 : 0)` (R61). -/
def remoteBits (r : Bool) : Word := if r then Config.canIdRemote else 0#32

/-- `(W & 0x20000000) != 0` (R61). -/
def extendedOf (w : Word) : Bool := (w &&& Config.canIdExtended) != 0#32

/-- `(W & 0x40000000) != 0` (R61). -/
def remoteOf (w : Word) : Bool := (w &&& Config.canIdRemote) != 0#32

end Sys2Proof.Machine
end

