-- ==== Sys2Proof/Machine/Ops.lean ====
section
/-! DEFINITION. The operations the meanings share: packing and unpacking an identifier word (spec/30_encoding.md R61),
its little-endian bytes (spec/00_scope.md R14), turning an outcome into a response (the block's only counterpart of
taking an exception: spec/60_exceptions.md R144, R147, R148), and giving the response to the request in progress. -/

namespace Sys2Proof.Machine

/-- `(v & 0x1FFFFFFF) | (e ? 0x20000000 : 0) | (r ? 0x40000000 : 0)`, the formula of IDENC and MASK (R61). -/
def packWord (v : Nat) (e r : Bool) : Word :=
  BitVec.ofNat 32 (v &&& Config.canIdMask) ||| extendedBits e ||| remoteBits r

/-- The fields of a word; bit 31 is not read (R61, R62). -/
def unpackWord (w : Word) : Identifier :=
  { value := BitVec.ofNat 29 (w.toNat &&& Config.canIdMask)
    extended := extendedOf w
    remote := remoteOf w }

/-- `[W[7:0], W[15:8], W[23:16], W[31:24]]` (spec/00_scope.md R14; spec/20_memory.md R40). -/
def bytesLe32 (w : Word) : List Byte :=
  [w.extractLsb' 0 8, w.extractLsb' 8 8, w.extractLsb' 16 8, w.extractLsb' 24 8]

/-- `b[0] | b[1]<<8 | b[2]<<16 | b[3]<<24` (spec/00_scope.md R14). -/
def le32 (b0 b1 b2 b3 : Byte) : Word :=
  b0.setWidth 32 ||| (b1.setWidth 32 <<< 8) ||| (b2.setWidth 32 <<< 16) ||| (b3.setWidth 32 <<< 24)

/-- The word an encoded identifier's bytes are "as integers" (spec/40_identifier.md R84); none if they are not 4. -/
def wordOfBytes : List Byte → Option Word
  | [b0, b1, b2, b3] => some (le32 b0 b1 b2 b3)
  | _ => none

/-- The error response: ERR alone holds a value, nothing is saved, nothing else changes (spec/60_exceptions.md R144,
R147). -/
def errorResponse (e : ErrStatus) : Response := Response.bare e

/-- The response of an operation's outcome: an error gives the error alone, a result the fields `define` gives it. -/
def respondWith {α : Type} (define : α → Response → Response) : Result α → Response
  | .ok a => define a (Response.bare .ok)
  | .rangeError => errorResponse .range
  | .lengthError => errorResponse .length

/-- The request in progress gets its response and is in progress no longer; the response goes to the requester of that
request (spec/10_state.md R20, R38; spec/60_exceptions.md R149). With no request in progress the response answers
none (log 5). -/
def respond (r : Response) (s : State) : State :=
  { requests := s.requests.tail
    responses := s.responses ++ [{ request := s.requests.head?, response := r }] }

/-- A requester that has no request in progress: every requester in `rs` has a smaller number. -/
def freshRequester : List Request → Nat
  | [] => 0
  | q :: rest => max (q.requester + 1) (freshRequester rest)

end Sys2Proof.Machine
end

