-- ==== Sys2Proof/Machine/Operands.lean ====
section
/-! DEFINITION. Operand assembly from the request fields, every form of spec/30_encoding.md R70. -/

namespace Sys2Proof.Machine

/-- A value operand: `zext_32(VAL)`. -/
def valueOperand (val : BitVec 32) : Nat := val.toNat

/-- An identifier operand: VAL bits 28..0 and the two flags; VAL bits 31..29 are discarded without error. -/
def identifierOperand (val : BitVec 32) (ext rtr : Bool) : Identifier :=
  { value := BitVec.ofNat 29 (val.toNat &&& Config.canIdMask), extended := ext, remote := rtr }

/-- A buffer or payload operand, `INBUF[0 .. INLEN-1]`, where the port carries it whole (INLEN at most 12). -/
def bufferOperand (b : InBuf) : Option (List Byte) :=
  if b.inlen.toNat ≤ Config.inbufCap then some (b.bytes.take b.inlen.toNat) else none

/-- An operation on a buffer or payload operand. A buffer longer than the port carries is longer than every operation
accepts, so the response is LengthError (spec/30_encoding.md R65; log 10). -/
def onBuffer {α : Type} (b : InBuf) (op : List Byte → Result α) : Result α :=
  match bufferOperand b with
  | some bytes => op bytes
  | none => .lengthError

end Sys2Proof.Machine
end

