-- ==== Sys2Proof/Machine/FilterMask.lean ====
section
/-! DEFINITION. The acceptance-filter mask generator: MASK, and filter entries (spec/41_filter_mask.md). MASK works on
raw numbers and goes through no range check and no identifier (R108). -/

namespace Sys2Proof.Machine

/-- MASK (R100): IDENC's formula on a number of any size, returned as a word. -/
def mask (v : Nat) (e r : Bool) : Word := packWord v e r

/-- MASK at the port (spec/30_encoding.md R69, R70; R100). -/
def execMask (val : BitVec 32) (ext rtr : Bool) (s : State) : Host.Outcome State Fault Refusal :=
  .next (respond (respondWith Response.withWord (.ok (mask (valueOperand val) ext rtr))) s)

/-- ACCEPTALL, the accept-all entry (0, 0): `MASK 0, 0, 0` for both words (spec/30_encoding.md R76; R106). -/
def acceptAll : FilterEntry :=
  { identifierWord := mask 0 false false, maskWord := mask 0 false false }

/-- The INTENDED acceptance predicate `(rx & m) = (fid & m)` of the device that consumes entries (R105). Informative:
the block does not compute it, no step calls it, and it is the spec's assumption about a device (log 12). -/
def FilterEntry.intendedAccepts (f : FilterEntry) (rx : Word) : Bool :=
  (rx &&& f.maskWord) == (f.identifierWord &&& f.maskWord)

end Sys2Proof.Machine
end

