-- ==== Sys2Proof/Machine/Identifier.lean ====
section
/-! DEFINITION. The Identifier Codec: IDNEW, IDENC, IDDEC (spec/40_identifier.md), each at the operation level and then
as the meaning of its request. -/

namespace Sys2Proof.Machine

/-- A value that passed the range check makes a valid identifier: it fits 29 bits, so no bit of it is dropped. -/
theorem isValid_of_legalValue (v : Nat) (e r : Bool) (h : legalValue v e = true) :
    Identifier.isValid { value := BitVec.ofNat 29 v, extended := e, remote := r } = true := by
  have hv : v ≤ 0x1FFFFFFF := by
    unfold legalValue at h
    split at h
    · exact of_decide_eq_true h
    · exact Nat.le_trans (of_decide_eq_true h) (by decide)
  have hmod : v % 536870912 = v := Nat.mod_eq_of_lt (by omega)
  simpa [Identifier.isValid, hmod] using h

/-- IDNEW (R80): RangeError when the value is not legal for its mode, else the identifier with exactly the operands.
`remote` takes no part in the check. -/
def idnew (v : Nat) (e r : Bool) : Result ValidIdentifier :=
  if h : legalValue v e = true then
    .ok ⟨{ value := BitVec.ofNat 29 v, extended := e, remote := r }, isValid_of_legalValue v e r h⟩
  else .rangeError

/-- The identifier word W of IDENC (R83, R84). -/
def idencWord (id : Identifier) : Word := packWord id.value.toNat id.extended id.remote

/-- IDENC (R83): W as 4 little-endian bytes; total on identifiers, valid or wire. -/
def idenc (id : Identifier) : List Byte := bytesLe32 (idencWord id)

/-- IDDEC (R86, R87): a buffer of exactly 4 bytes decodes, with no range check; any other length is LengthError. -/
def iddec : List Byte → Result Identifier
  | [b0, b1, b2, b3] => .ok (unpackWord (le32 b0 b1 b2 b3))
  | _ => .lengthError

/-- The fields IDENC defines: OLEN = 4, OBUF[0..3] and OWORD = le32(OBUF[0..3]) (spec/30_encoding.md R69). -/
def defineIdBytes (bytes : List Byte) (r : Response) : Response :=
  match wordOfBytes bytes with
  | some w => (r.withBuffer bytes).withWord w
  | none => r.withBuffer bytes

/-- IDNEW at the port (R69, R70, R80). -/
def execIdnew (val : BitVec 32) (ext rtr : Bool) (s : State) : Host.Outcome State Fault Refusal :=
  .next (respond (respondWith (fun v r => r.withIdentifier v.id) (idnew (valueOperand val) ext rtr)) s)

/-- IDENC at the port (R69, R70, R83). -/
def execIdenc (val : BitVec 32) (ext rtr : Bool) (s : State) : Host.Outcome State Fault Refusal :=
  .next (respond (respondWith defineIdBytes (.ok (idenc (identifierOperand val ext rtr)))) s)

/-- IDDEC at the port (R69, R70, R86). -/
def execIddec (buf : InBuf) (s : State) : Host.Outcome State Fault Refusal :=
  .next (respond (respondWith Response.withIdentifier (onBuffer buf iddec)) s)

end Sys2Proof.Machine
end

