-- ==== Sys2Proof/Machine/FrameCodec.lean ====
section
/-! DEFINITION. The Frame Codec: FRNEW, FRENC, FRDEC (spec/42_frame.md), by composition with the Identifier Codec
(R123). None of them constructs an identifier through IDNEW, so none raises RangeError (R122). -/

namespace Sys2Proof.Machine

/-- FRNEW (R120, R121): LengthError over 8 payload bytes, else the frame with id and payload unchanged. -/
def frnew (id : Identifier) (d : List Byte) : Result Frame :=
  if h : d.length > Config.maxPayload then .lengthError
  else .ok { id := id, data := d, len_le := Nat.le_of_not_lt h }

/-- FRENC (R124): the identifier's 4 bytes, then the payload verbatim. -/
def frenc (f : Frame) : List Byte := idenc f.id ++ f.data

/-- FRDEC (R130 to R132): LengthError under 4 bytes or with over 8 payload bytes; else IDDEC of the first 4 bytes and
the rest as payload. -/
def frdec (b : List Byte) : Result Frame :=
  if b.length < Config.idWordBytes then .lengthError
  else if b.length - Config.idWordBytes > Config.maxPayload then .lengthError
  else (iddec (b.take Config.idWordBytes)).bind fun id => frnew id (b.drop Config.idWordBytes)

/-- The fields FRNEW and FRDEC define: the identifier, OLEN and the payload (spec/30_encoding.md R69). -/
def defineFrame (f : Frame) (r : Response) : Response := (r.withIdentifier f.id).withBuffer f.data

/-- FRNEW at the port (spec/30_encoding.md R69, R70; R120). -/
def execFrnew (val : BitVec 32) (ext rtr : Bool) (buf : InBuf) (s : State) : Host.Outcome State Fault Refusal :=
  .next (respond (respondWith defineFrame (onBuffer buf (frnew (identifierOperand val ext rtr)))) s)

/-- FRENC at the port: operands that form no frame get LengthError, as FRNEW would answer (R126; D10). -/
def execFrenc (val : BitVec 32) (ext rtr : Bool) (buf : InBuf) (s : State) : Host.Outcome State Fault Refusal :=
  .next (respond (respondWith Response.withBuffer
    ((onBuffer buf (frnew (identifierOperand val ext rtr))).map frenc)) s)

/-- FRDEC at the port (spec/30_encoding.md R69, R70; R130). -/
def execFrdec (buf : InBuf) (s : State) : Host.Outcome State Fault Refusal :=
  .next (respond (respondWith defineFrame (onBuffer buf frdec)) s)

end Sys2Proof.Machine
end

