-- ==== Sys2Proof/Machine/Dispatch.lean ====
section
/-! DEFINITION. One arm per operation of spec/30_encoding.md R66. -/

namespace Sys2Proof.Machine

/-- The meaning of an instruction. -/
def exec (i : Instr) (s : State) : Host.Outcome State Fault Refusal :=
  match i with
  | .idnew val ext rtr => Sys2Proof.Machine.execIdnew val ext rtr s
  | .idenc val ext rtr => Sys2Proof.Machine.execIdenc val ext rtr s
  | .iddec buf => Sys2Proof.Machine.execIddec buf s
  | .mask val ext rtr => Sys2Proof.Machine.execMask val ext rtr s
  | .frnew val ext rtr buf => Sys2Proof.Machine.execFrnew val ext rtr buf s
  | .frenc val ext rtr buf => Sys2Proof.Machine.execFrenc val ext rtr buf s
  | .frdec buf => Sys2Proof.Machine.execFrdec buf s

end Sys2Proof.Machine
end

