-- ==== Sys2Proof/Machine/Step.lean ====
section
/-! DEFINITION. One step of the block: the request in progress that the arbitration serves next gets its response
(spec/10_state.md R20; spec/20_memory.md R46). -/

namespace Sys2Proof.Machine

/-- With no request in progress the block does nothing: it "never starts an action of its own" (spec/10_state.md R20;
log 3). A request with OP = 0b111 is refused (spec/30_encoding.md R71). Any other is answered in this one step. -/
def step (s : State) : Host.Outcome State Fault Refusal :=
  match s.requests with
  | [] => .next s
  | q :: _ =>
    match decode q.bundle with
    | .ok i => exec i s
    | .error .reservedOperation => .refused .reservedOperation

/-- `s` with one more request, which the next step answers: the block fetches no instructions (R22), a requester issues
them, and this stands for one that has no request in progress issuing one (log 4). -/
def State.withFetchWord (s : State) (nbits w : Nat) : State :=
  { s with requests := { requester := freshRequester s.requests, bundle := bundleOfTableWord nbits w } :: s.requests }

end Sys2Proof.Machine
end

