-- ==== Sys2Proof/Machine/OpLevel.lean ====
section
/-! DEFINITION. The operation level (spec/00_scope.md R7; spec/30_encoding.md R78): a request as a typed record, its
answer, and how a requester presents it at the port (R65, R70). -/

namespace Sys2Proof.Machine

/-- An operation-level request, restricted to the operands its operation reads (R78). -/
inductive OpRequest where
  | idnew (v : Nat) (e r : Bool)
  | idenc (id : Identifier)
  | iddec (b : List Byte)
  | mask (v : Nat) (e r : Bool)
  | frnew (id : Identifier) (d : List Byte)
  | frenc (f : Frame)
  | frdec (b : List Byte)
  deriving DecidableEq, Repr

/-- An operation-level result. -/
inductive OpValue where
  | validIdentifier (v : ValidIdentifier)
  | identifier (id : Identifier)
  | idBytes (b : List Byte)
  | word (w : Word)
  | frame (f : Frame)
  | buffer (b : List Byte)
  deriving DecidableEq, Repr

/-- The answer: OK with a result, RangeError or LengthError (R78). -/
def OpRequest.answer : OpRequest → Result OpValue
  | .idnew v e r => (Machine.idnew v e r).map .validIdentifier
  | .idenc id => .ok (.idBytes (Machine.idenc id))
  | .iddec b => (Machine.iddec b).map .identifier
  | .mask v e r => .ok (.word (Machine.mask v e r))
  | .frnew id d => (Machine.frnew id d).map .frame
  | .frenc f => .ok (.buffer (Machine.frenc f))
  | .frdec b => (Machine.frdec b).map .frame

/-- The response fields that carry a result at the port (R67, R69). -/
def OpValue.define : OpValue → Response → Response
  | .validIdentifier v, r => r.withIdentifier v.id
  | .identifier id, r => r.withIdentifier id
  | .idBytes b, r => defineIdBytes b r
  | .word w, r => r.withWord w
  | .frame f, r => defineFrame f r
  | .buffer b, r => r.withBuffer b

/-- IDNEW's value at the port: 0xFFFFFFFF for a value of 2^32 or more (R70). -/
def presentIdnewValue (v : Nat) : BitVec 32 := if v < 2 ^ 32 then BitVec.ofNat 32 v else 0xFFFFFFFF#32

/-- MASK's value at the port: the low 32 bits (R70). -/
def presentMaskValue (v : Nat) : BitVec 32 := BitVec.ofNat 32 v

/-- A buffer at the port: INLEN at most 255, and the first 12 bytes (R65). -/
def presentBuffer (b : List Byte) : InBuf :=
  { inlen := BitVec.ofNat 8 (min b.length Config.inlenMax), bytes := b.take Config.inbufCap }

/-- The port-level request that carries an operation-level one (R65, R70). -/
def OpRequest.present : OpRequest → Instr
  | .idnew v e r => .idnew (presentIdnewValue v) e r
  | .idenc id => .idenc (id.value.setWidth 32) id.extended id.remote
  | .iddec b => .iddec (presentBuffer b)
  | .mask v e r => .mask (presentMaskValue v) e r
  | .frnew id d => .frnew (id.value.setWidth 32) id.extended id.remote (presentBuffer d)
  | .frenc f => .frenc (f.id.value.setWidth 32) f.id.extended f.id.remote (presentBuffer f.data)
  | .frdec b => .frdec (presentBuffer b)

/-- The source's notation `Identifier(v)`, `Identifier(v, extended=...)`, ...: a flag left out is false (R77; D8). -/
def construct (value : Nat) (extended : Bool := false) (remote : Bool := false) : Result ValidIdentifier :=
  idnew value extended remote

/-- The pseudo-operation IDWORD (R76): IDNEW, then IDENC if it gave OK. -/
def idword (v : Nat) (e r : Bool) : Result (List Byte) :=
  (idnew v e r).map fun t => idenc t.id

/-- The pseudo-operation FRAME (R76): IDNEW, FRNEW, FRENC, each only if the previous gave OK. -/
def frameBytes (v : Nat) (e r : Bool) (d : List Byte) : Result (List Byte) :=
  (idnew v e r).bind fun t => (frnew t.id d).map frenc

end Sys2Proof.Machine
end

