-- ==== Sys2Proof/Machine/Requester.lean ====
section
/-! DEFINITION. The other agents: the requesters' moves (spec/10_state.md R37) and the reset input
(spec/70_reset_and_hazards.md R160 to R163). Each may land between any two steps of the block; none is a step of it. -/

namespace Sys2Proof.Machine

/-- `k` steps of the block, stopping at the first fault or refusal (Host/Core.lean's `run`, for this machine). -/
def runSteps : Nat → State → Host.Outcome State Fault Refusal
  | 0, s => .next s
  | k + 1, s =>
    match step s with
    | .next s' => runSteps k s'
    | .fault e => .fault e
    | .refused e => .refused e

/-- How many of the requests in progress stand before or are the last one of requester `who`; 0 if it has none. -/
def ownPrefix (who : Nat) : List Request → Nat
  | [] => 0
  | q :: rest =>
    match ownPrefix who rest with
    | 0 => if q.requester == who then 1 else 0
    | n + 1 => n + 2

/-- How many requests in progress a new one of requester `who` comes after. The block does not reorder (R37), so it
comes after all of that requester's own; for the rest the order is the arbitration's, which the spec leaves open (R39;
D18; log 2): `place` is any number. -/
def issuePlace (place who : Nat) (rs : List Request) : Nat :=
  min rs.length (max place (ownPrefix who rs))

/-- A requester issues a request (R37): it comes among the requests in progress at its place, and nothing else
changes. -/
def issue (place : Nat) (q : Request) (s : State) : State :=
  let k := issuePlace place q.requester s.requests
  { s with requests := s.requests.take k ++ q :: s.requests.drop k }

/-- Reset is asserted: a request in progress has no response and response fields hold no value (R160, R161). -/
def assertReset (_ : State) : State := State.reset

/-- The responses delivered to one requester, oldest first; it got them in the order it issued the requests. -/
def State.responsesTo (s : State) (who : Nat) : List Response :=
  (s.responses.filter (fun d => d.requester == some who)).map Delivery.response

/-- Requester `who` reads a field of the `n`-th response it got: the number the field holds, or a fault where it holds
no value or there is no such response (spec/30_encoding.md R67; R36). -/
def readField (who n : Nat) (f : Field) (s : State) : Except Fault Nat :=
  match (s.responsesTo who)[n]? with
  | none => .error (.noValue f)
  | some r =>
    match r.read f with
    | none => .error (.noValue f)
    | some v => .ok v

/-- The status a 2-bit error code stands for; 0b11 faults (spec/30_encoding.md R68;
spec/93_implementation_defined.md section 1). -/
def statusOfCode (c : BitVec 2) : Except Fault ErrStatus :=
  match ErrStatus.ofCode c with
  | some e => .ok e
  | none => .error .undefinedStatus

/-- What can happen to the block from outside between two steps. -/
inductive Move where
  | issue (place : Nat) (q : Request)
  | read (who n : Nat) (f : Field)
  | reset
  deriving DecidableEq, Repr

/-- A move's outcome. A read changes nothing (spec/20_memory.md R47) and faults as `readField` does. -/
def Move.apply (m : Move) (s : State) : Host.Outcome State Fault Refusal :=
  match m with
  | .issue place q => .next (Sys2Proof.Machine.issue place q s)
  | .read who n f =>
    match readField who n f s with
    | .ok _ => .next s
    | .error e => .fault e
  | .reset => .next (assertReset s)

/-- One action of the whole system: the block answers (none), or a move from outside. -/
def act (a : Option Move) (s : State) : Host.Outcome State Fault Refusal :=
  match a with
  | none => step s
  | some m => m.apply s

/-- A run of the whole system, stopping at the first fault or refusal. -/
def actAll : List (Option Move) → State → Host.Outcome State Fault Refusal
  | [], s => .next s
  | a :: rest, s =>
    match act a s with
    | .next s' => actAll rest s'
    | .fault e => .fault e
    | .refused e => .refused e

end Sys2Proof.Machine
end

