-- ==== Sys2Proof/Machine/Program.lean ====
section
/-! DEFINITION. A requester's program (spec/10_state.md R22; spec/95_test_vectors.md section 4): request lines whose
results may be named and stand as operands of later lines (spec/30_encoding.md R75), and the pseudo-operations (R76).
The order is the requester's; the block sees one bundle after another. -/

namespace Sys2Proof.Machine

/-- A result that a requester has named. -/
inductive Named where
  | identifier (id : Identifier)
  | frame (id : Identifier) (data : List Byte)
  | bytes (b : List Byte)
  | word (w : Word)
  deriving DecidableEq, Repr

/-- The operands `v, e, r`, written out or the name of an identifier (R75). -/
inductive IdArg where
  | parts (v : Nat) (e r : Bool)
  | name (n : String)
  deriving DecidableEq, Repr

/-- Bytes in brackets, or the name of a byte result. -/
inductive BytesArg where
  | bytes (b : List Byte)
  | name (n : String)
  deriving DecidableEq, Repr

/-- The operands `v, e, r, [data]`, or the name of a frame (R75). -/
inductive FrameArg where
  | parts (id : IdArg) (d : BytesArg)
  | name (n : String)
  deriving DecidableEq, Repr

/-- A request as a line writes it. -/
inductive Call where
  | idnew (a : IdArg)
  | idenc (a : IdArg)
  | iddec (b : BytesArg)
  | mask (a : IdArg)
  | frnew (f : FrameArg)
  | frenc (f : FrameArg)
  | frdec (b : BytesArg)
  deriving DecidableEq, Repr

/-- One request line, its result named or not. -/
structure Line where
  call : Call
  result : Option String
  deriving DecidableEq, Repr

/-- What the requester knows under each name; `none` where the request gave an error. The newest entry of a name
counts. -/
abbrev Env := List (String × Option Named)

/-- The value of a name. -/
def Env.lookup? (env : Env) (n : String) : Option Named :=
  match env.find? (fun entry => entry.1 == n) with
  | some entry => entry.2
  | none => none

/-- The value and flags an identifier argument stands for. -/
def IdArg.resolve (env : Env) : IdArg → Option (Nat × Bool × Bool)
  | .parts v e r => some (v, e, r)
  | .name n =>
    match env.lookup? n with
    | some (.identifier id) => some (id.value.toNat, id.extended, id.remote)
    | _ => none

/-- The bytes a byte argument stands for. -/
def BytesArg.resolve (env : Env) : BytesArg → Option (List Byte)
  | .bytes b => some b
  | .name n =>
    match env.lookup? n with
    | some (.bytes b) => some b
    | _ => none

/-- The operands a frame argument stands for. -/
def FrameArg.resolve (env : Env) : FrameArg → Option ((Nat × Bool × Bool) × List Byte)
  | .parts id d =>
    match id.resolve env, d.resolve env with
    | some i, some bytes => some (i, bytes)
    | _, _ => none
  | .name n =>
    match env.lookup? n with
    | some (.frame id data) => some ((id.value.toNat, id.extended, id.remote), data)
    | _ => none

/-- The request a line presents at the port (R65, R70); none where a name it uses has no value. -/
def Call.instr (env : Env) : Call → Option Instr
  | .idnew a => (a.resolve env).map fun (v, e, r) => .idnew (presentIdnewValue v) e r
  | .idenc a => (a.resolve env).map fun (v, e, r) => .idenc (BitVec.ofNat 32 v) e r
  | .iddec b => (b.resolve env).map fun bytes => .iddec (presentBuffer bytes)
  | .mask a => (a.resolve env).map fun (v, e, r) => .mask (presentMaskValue v) e r
  | .frnew f => (f.resolve env).map fun ((v, e, r), d) => .frnew (BitVec.ofNat 32 v) e r (presentBuffer d)
  | .frenc f => (f.resolve env).map fun ((v, e, r), d) => .frenc (BitVec.ofNat 32 v) e r (presentBuffer d)
  | .frdec b => (b.resolve env).map fun bytes => .frdec (presentBuffer bytes)

/-- The identifier a response carries (R69). -/
def Response.identifier? (r : Response) : Option Identifier :=
  match r.oval, r.oext, r.ortr with
  | some v, some e, some m => some { value := v, extended := e, remote := m }
  | _, _, _ => none

/-- What a requester reads from the response to `i` and puts under the line's name: the fields R69 defines; nothing on
an error (spec/60_exceptions.md R144). -/
def namedResult (i : Instr) (r : Response) : Option Named :=
  match r.err with
  | .range => none
  | .length => none
  | .ok =>
    match i with
    | .idnew _ _ _ => r.identifier?.map .identifier
    | .idenc _ _ _ => some (.bytes r.obuf)
    | .iddec _ => r.identifier?.map .identifier
    | .mask _ _ _ => r.oword.map .word
    | .frnew _ _ _ _ => r.identifier?.map fun id => .frame id r.obuf
    | .frenc _ _ _ _ => some (.bytes r.obuf)
    | .frdec _ => r.identifier?.map fun id => .frame id r.obuf

/-- What the requester knows once a line's request gave `v`. -/
def Line.nameResult (l : Line) (v : Option Named) (env : Env) : Env :=
  match l.result with
  | some n => (n, v) :: env
  | none => env

/-- Requester `who` runs one line: it issues the request, which comes at any place the arbitration gives it (`place`;
spec/10_state.md R39, D18); the block answers the requests before it and then it; the requester names the result. A
line that uses a name without a value is not issued, and its own result has none (R76, "each only if the previous gave
OK"; log 17). No other requester issues in the meantime, which is the model's choice (log 17). -/
def runLine (who place : Nat) (l : Line) (env : Env) (s : State) : Host.Outcome (Env × State) Fault Refusal :=
  match l.call.instr env with
  | none => .next (l.nameResult none env, s)
  | some i =>
    match runSteps (issuePlace place who s.requests + 1) (issue place { requester := who, bundle := encode i } s) with
    | .next t => .next (l.nameResult ((t.responses.getLast?).bind fun d => namedResult i d.response) env, t)
    | .fault e => .fault e
    | .refused e => .refused e

/-- Requester `who` runs a program, line by line, each line beside the place its request is given among the requests in
progress. -/
def runProgram (who : Nat) : List (Nat × Line) → Env → State → Host.Outcome (Env × State) Fault Refusal
  | [], env, s => .next (env, s)
  | (place, l) :: rest, env, s =>
    match runLine who place l env s with
    | .next (env', s') => runProgram who rest env' s'
    | .fault e => .fault e
    | .refused e => .refused e

/-- IDWORD v, e, r (R76): `IDNEW v, e, r -> t`, then `IDENC t`; the result under `out`. -/
def idwordLines (v : Nat) (e r : Bool) (t out : String) : List Line :=
  [{ call := .idnew (.parts v e r), result := some t }, { call := .idenc (.name t), result := some out }]

/-- FRAME v, e, r, [d] (R76): `IDNEW v, e, r -> t`, `FRNEW t, [d] -> f`, `FRENC f`; the result under `out`. -/
def frameLines (v : Nat) (e r : Bool) (d : List Byte) (t f out : String) : List Line :=
  [{ call := .idnew (.parts v e r), result := some t },
   { call := .frnew (.parts (.name t) (.bytes d)), result := some f },
   { call := .frenc (.name f), result := some out }]

/-- ACCEPTALL (R76): `MASK 0, 0, 0 -> w`, used for both words of the entry. -/
def acceptAllLines (w : String) : List Line :=
  [{ call := .mask (.parts 0 false false), result := some w }]

end Sys2Proof.Machine
end

