-- ==== Sys2Proof/Machine/Assembler.lean ====
section
/-! DEFINITION. The text of a request line (spec/30_encoding.md R75), read from its characters: a mnemonic, operands,
optionally `-> name`, and a comment after `;`. "Numbers are hex with 0x or decimal; bytes in brackets are two hex
digits each." The syntax is the spec's own notation (D27); no step of the block reads it. -/

namespace Sys2Proof.Machine

/-- What the characters of a line are grouped into. -/
inductive Token where
  | word (w : List Char)
  | comma
  | open
  | close
  | arrow
  | bad
  deriving DecidableEq, Repr

/-- The word read so far (last character first), if there is one. -/
def wordToken : List Char → List Token
  | [] => []
  | w => [.word w.reverse]

/-- Group a line's characters; `acc` is the word being read, last character first. -/
def tokens : List Char → List Char → List Token
  | [], acc => wordToken acc
  | '-' :: '>' :: rest, acc => wordToken acc ++ .arrow :: tokens rest []
  | c :: rest, acc =>
    if c == ';' then wordToken acc
    else if c.isAlphanum || c == '_' then tokens rest (c :: acc)
    else if c == ' ' then wordToken acc ++ tokens rest []
    else if c == ',' then wordToken acc ++ .comma :: tokens rest []
    else if c == '[' then wordToken acc ++ .open :: tokens rest []
    else if c == ']' then wordToken acc ++ .close :: tokens rest []
    else [.bad]

/-- One row of digits: `count` characters from `first` on, the first of them worth `worth`. -/
structure DigitRow where
  first : Char
  count : Nat
  worth : Nat
  deriving DecidableEq, Repr

/-- The digits a line may write: decimal, and the letters of hexadecimal in either case. -/
def digitRows : List DigitRow := [⟨'0', 10, 0⟩, ⟨'A', 6, 10⟩, ⟨'a', 6, 10⟩]

/-- What a digit is worth, by the row it stands in. -/
def hexDigit (c : Char) : Option Nat :=
  (digitRows.find? fun row => row.first.toNat ≤ c.toNat && c.toNat < row.first.toNat + row.count).map
    fun row => row.worth + (c.toNat - row.first.toNat)

/-- The number that digits in a base write, `acc` being what stands before them. -/
def digits (base : Nat) : List Char → Nat → Option Nat
  | [], acc => some acc
  | c :: rest, acc =>
    match hexDigit c with
    | some d => if d < base then digits base rest (acc * base + d) else none
    | none => none

/-- A number: hexadecimal with 0x, or decimal. -/
def number : List Char → Option Nat
  | [] => none
  | ['0', 'x'] => none
  | '0' :: 'x' :: rest => digits 16 rest 0
  | ds => digits 10 ds 0

/-- A flag operand, 0 or 1. -/
def flag (w : List Char) : Option Bool :=
  if w = ['0'] then some false else if w = ['1'] then some true else none

/-- A byte in brackets, two hex digits. -/
def byteOf : List Char → Option Byte
  | [a, b] =>
    match hexDigit a, hexDigit b with
    | some x, some y => some (BitVec.ofNat 8 (16 * x + y))
    | _, _ => none
  | _ => none

/-- The bytes up to the closing bracket, and the tokens after it. -/
def bracketed : List Token → Option (List Byte × List Token)
  | .close :: rest => some ([], rest)
  | .word w :: rest =>
    match byteOf w, bracketed rest with
    | some b, some (bs, rest') => some (b :: bs, rest')
    | _, _ => none
  | _ => none

/-- A name begins with a letter, so that it is no number. -/
def nameOf : List Char → Option String
  | c :: rest => if c.isAlpha then some (String.ofList (c :: rest)) else none
  | [] => none

/-- The operands `v, e, r` or the name of an identifier, and what follows. -/
def idArg : List Token → Option (IdArg × List Token)
  | .word v :: .comma :: .word e :: .comma :: .word r :: rest =>
    match number v, flag e, flag r with
    | some v, some e, some r => some (.parts v e r, rest)
    | _, _, _ =>
      match nameOf v with
      | some n => some (.name n, .comma :: .word e :: .comma :: .word r :: rest)
      | none => none
  | .word v :: rest =>
    match nameOf v with
    | some n => some (.name n, rest)
    | none => none
  | _ => none

/-- Bytes in brackets or a name, and what follows. -/
def bytesArg : List Token → Option (BytesArg × List Token)
  | .open :: rest =>
    match bracketed rest with
    | some (bs, rest') => some (.bytes bs, rest')
    | none => none
  | .word w :: rest =>
    match nameOf w with
    | some n => some (.name n, rest)
    | none => none
  | _ => none

/-- The operands `v, e, r, [data]`, `id, [data]`, or the name of a frame, and what follows. -/
def frameArg (ts : List Token) : Option (FrameArg × List Token) :=
  match idArg ts with
  | some (id, .comma :: rest) =>
    match bytesArg rest with
    | some (d, rest') => some (.parts id d, rest')
    | none => none
  | some (.name n, rest) => some (.name n, rest)
  | _ => none

/-- The call a mnemonic and its operands write, and what follows. -/
def call (mnemonic : List Char) (ts : List Token) : Option (Call × List Token) :=
  if mnemonic = ['I', 'D', 'N', 'E', 'W'] then (idArg ts).map fun (a, rest) => (.idnew a, rest)
  else if mnemonic = ['I', 'D', 'E', 'N', 'C'] then (idArg ts).map fun (a, rest) => (.idenc a, rest)
  else if mnemonic = ['I', 'D', 'D', 'E', 'C'] then (bytesArg ts).map fun (b, rest) => (.iddec b, rest)
  else if mnemonic = ['M', 'A', 'S', 'K'] then (idArg ts).map fun (a, rest) => (.mask a, rest)
  else if mnemonic = ['F', 'R', 'N', 'E', 'W'] then (frameArg ts).map fun (f, rest) => (.frnew f, rest)
  else if mnemonic = ['F', 'R', 'E', 'N', 'C'] then (frameArg ts).map fun (f, rest) => (.frenc f, rest)
  else if mnemonic = ['F', 'R', 'D', 'E', 'C'] then (bytesArg ts).map fun (b, rest) => (.frdec b, rest)
  else none

/-- A whole line, or none where it is not one. -/
def parseLine (text : List Char) : Option Line :=
  match tokens text [] with
  | .word m :: ts =>
    match call m ts with
    | some (c, []) => some { call := c, result := none }
    | some (c, [.arrow, .word n]) => (nameOf n).map fun n => { call := c, result := some n }
    | _ => none
  | _ => none

end Sys2Proof.Machine
end

