-- ==== Sys2Proof/Safety.lean ====
section
/-! DEFINITION. What claims call a legal response, a safe state, a faithful state and a requester's ledger. -/

namespace Sys2Proof.Machine

/-- The result fields hold no value (spec/60_exceptions.md R144). -/
def Response.noResult (r : Response) : Bool :=
  r.oval.isNone && r.oext.isNone && r.ortr.isNone && r.oword.isNone && r.olen.isNone && r.obuf.isEmpty

/-- What a row of spec/30_encoding.md R69 defines on OK: whether the identifier fields, whether OWORD, and between which
lengths the output buffer, if any. -/
structure DefinedFields where
  identifier : Bool
  word : Bool
  buffer : Option (Nat × Nat)
  deriving DecidableEq, Repr

/-- The column "on OK, defines" of R69; the buffer lengths are those of spec/20_memory.md R45. -/
def definedFields : Instr → DefinedFields
  | .idnew _ _ _ => { identifier := true, word := false, buffer := none }
  | .idenc _ _ _ => { identifier := false, word := true, buffer := some (Config.idWordBytes, Config.idWordBytes) }
  | .iddec _ => { identifier := true, word := false, buffer := none }
  | .mask _ _ _ => { identifier := false, word := true, buffer := none }
  | .frnew _ _ _ _ => { identifier := true, word := false, buffer := some (0, Config.maxPayload) }
  | .frenc _ _ _ _ => { identifier := false, word := false, buffer := some (Config.idWordBytes, Config.maxFrameBytes) }
  | .frdec _ => { identifier := true, word := false, buffer := some (0, Config.maxPayload) }

/-- The column "errors" of R69. -/
def errorsOf : Instr → List ErrStatus
  | .idnew _ _ _ => [.range]
  | .idenc _ _ _ => []
  | .iddec _ => [.length]
  | .mask _ _ _ => []
  | .frnew _ _ _ _ => [.length]
  | .frenc _ _ _ _ => [.length]
  | .frdec _ => [.length]

/-- Exactly the fields of a row of R69 hold values, and OLEN is the buffer's length, within the row's bounds. -/
def Response.defines (r : Response) (d : DefinedFields) : Bool :=
  [r.oval.isSome, r.oext.isSome, r.ortr.isSome, r.oword.isSome] == [d.identifier, d.identifier, d.identifier, d.word] &&
  (match d.buffer with
    | none => r.olen.isNone && r.obuf.isEmpty
    | some (least, most) =>
      r.olen == some (BitVec.ofNat 4 r.obuf.length) && decide (least ≤ r.obuf.length ∧ r.obuf.length ≤ most))

/-- Bit 31 of a word that the block produces is clear, as a number and in byte 3 of its bytes (spec/30_encoding.md
R62); a word beside bytes is the bytes' (R69). The buffer of a response with an identifier is payload and holds no
word. -/
def Response.wordsClear (r : Response) : Bool :=
  r.oword.all (fun w => !w.getLsbD 31 && (r.olen.isNone || wordOfBytes r.obuf == some w)) &&
  (r.oval.isSome || r.obuf[3]?.all (fun b => !b.getLsbD 7))

/-- What a response to the operation `i` looks like: OK with the fields of its row of R69, or an error of its row with
no result (spec/60_exceptions.md R144). -/
def Response.legalFor (i : Instr) (r : Response) : Bool :=
  match r.err with
  | .ok => r.defines (definedFields i) && r.wordsClear
  | .range => (errorsOf i).contains .range && r.noResult
  | .length => (errorsOf i).contains .length && r.noResult

/-- A response delivered to a request (spec/60_exceptions.md R149) that selects an operation, and legal for it. -/
def Delivery.legal (d : Delivery) : Bool :=
  match d.request with
  | none => false
  | some q =>
    match decode q.bundle with
    | .ok i => d.response.legalFor i
    | .error _ => false

/-- A safe state: every response delivered is legal for the request it answers. -/
def State.safe (s : State) : Bool := s.responses.all Delivery.legal

/-- Every response is the one its request gets alone: "response = operation(request)" (spec/20_memory.md R50). -/
def State.faithful (s : State) : Prop :=
  ∀ d, d ∈ s.responses → ∃ q, d.request = some q ∧
    step { requests := [q], responses := [] } = .next { requests := [], responses := [d] }

/-- The requests of one requester in the order it issued them: those answered, then those in progress
(spec/10_state.md R37). -/
def State.ledger (s : State) (who : Nat) : List Request :=
  (s.responses.filterMap Delivery.request ++ s.requests).filter fun q => q.requester == who

end Sys2Proof.Machine
end

