-- ==== Sys2Proof/Certificates/Slice0/Obligations.lean ====
section
/-! DEFINITION. The statements for the provers. Each formalises rules of spec/, named in its docstring. Formulas of the
spec are written out here as numbers (`Formula.word`) or bit by bit, not by the model's own functions. -/

open Sys2Proof Sys2Proof.Machine

/-- The packing formula of spec/30_encoding.md R61, on natural numbers (spec/00_scope.md R12). -/
def Sys2Proof.Formula.word (v : Nat) (e r : Bool) : Nat :=
  (v &&& 0x1FFFFFFF) ||| (if e then 0x20000000 else 0) ||| (if r then 0x40000000 else 0)

/-- `[W[7:0], W[15:8], W[23:16], W[31:24]]` (spec/00_scope.md R14). -/
def Sys2Proof.Formula.bytes (w : Nat) : List Byte :=
  [BitVec.ofNat 8 w, BitVec.ofNat 8 (w >>> 8), BitVec.ofNat 8 (w >>> 16), BitVec.ofNat 8 (w >>> 24)]

/-- `b[0] | b[1]<<8 | b[2]<<16 | b[3]<<24` (spec/00_scope.md R14). -/
def Sys2Proof.Formula.le32 (b0 b1 b2 b3 : Byte) : Nat :=
  b0.toNat ||| b1.toNat <<< 8 ||| b2.toNat <<< 16 ||| b3.toNat <<< 24

/-- The fields of the word `w` are those of `id` (spec/30_encoding.md R61). -/
def Sys2Proof.Formula.fields (w : Nat) (id : Identifier) : Prop :=
  id.value.toNat = w &&& 0x1FFFFFFF ∧
  (id.extended = true ↔ w &&& 0x20000000 ≠ 0) ∧
  (id.remote = true ↔ w &&& 0x40000000 ≠ 0)

/-- `buf` is the input buffer of the bundle `b`: INLEN in bits 44..37 and the first min(INLEN, 12) bytes of INBUF, byte
k in bits 52+8k..45+8k (spec/30_encoding.md R65). -/
def Sys2Proof.Formula.bufferOf (b : ReqBundle) (buf : InBuf) : Prop :=
  buf.inlen = b.extractLsb' 37 8 ∧
  buf.bytes.length = min (b.extractLsb' 37 8).toNat 12 ∧
  ∀ k, k < buf.bytes.length → buf.bytes[k]? = some (b.extractLsb' (45 + 8 * k) 8)

/-- A value out of the range its mode allows (spec/40_identifier.md R80). -/
def Sys2Proof.Formula.outOfRange (v : Nat) (e : Bool) : Prop :=
  (e = false ∧ v > 0x7FF) ∨ (e = true ∧ v > 0x1FFFFFFF)

/-! ## The step, and the requests -/

/-- spec/10_state.md R20; spec/20_memory.md R46. A step answers the request that is served next, and the answer is its
decoded operation's; nothing stands around `exec`. -/
def Obligations.StepRunsTheDecodedRequest : Prop :=
  (∀ (s : State) (q : Request) (rest : List Request) (i : Instr),
    s.requests = q :: rest → decode q.bundle = .ok i → step s = exec i s) ∧
  (∀ (s : State) (nbits w : Nat) (i : Instr),
    decodeTableWord nbits w = some i → step (s.withFetchWord nbits w) = exec i (s.withFetchWord nbits w))

/-- spec/10_state.md R20, "The block never starts an action of its own"; that such a step answers the same state is the
model's choice (log 3). -/
def Obligations.IdleBlockChangesNothing : Prop :=
  ∀ (s : State) (k : Nat), s.requests = [] → runSteps k s = .next s

/-- spec/30_encoding.md R71. -/
def Obligations.ReservedOperationIsRefused : Prop :=
  ∀ (s : State) (q : Request) (rest : List Request) (k : Nat),
    s.requests = q :: rest → q.bundle.extractLsb' 0 3 = 0b111#3 →
      step s = .refused .reservedOperation ∧
      runSteps (k + 1) s = .refused .reservedOperation

/-- spec/30_encoding.md R72, "No other request is illegal"; spec/60_exceptions.md R157. A bundle decodes, to a
well-formed operation, exactly when its OP is not the reserved code. -/
def Obligations.OnlyTheReservedCodeIsRejected : Prop :=
  ∀ b : ReqBundle,
    (b.extractLsb' 0 3 ≠ 0b111#3 → ∃ i, decode b = .ok i ∧ i.wellFormed = true) ∧
    (b.extractLsb' 0 3 = 0b111#3 → decode b = .error .reservedOperation)

/-- spec/30_encoding.md R69, R72, R65. Bundles that agree on OP, on the fields the operation reads and on the INBUF
bytes INLEN covers select the same operation with the same operands. -/
def Obligations.UnreadFieldsAreIgnored : Prop :=
  ∀ b b' : ReqBundle,
    b.extractLsb' 0 3 = b'.extractLsb' 0 3 →
    (b.extractLsb' 0 3 ≠ 0b010#3 → b.extractLsb' 0 3 ≠ 0b110#3 → b.extractLsb' 3 34 = b'.extractLsb' 3 34) →
    (b.extractLsb' 0 3 ≠ 0b000#3 → b.extractLsb' 0 3 ≠ 0b001#3 → b.extractLsb' 0 3 ≠ 0b011#3 →
      b.extractLsb' 37 8 = b'.extractLsb' 37 8 ∧
      ∀ k, k < (b.extractLsb' 37 8).toNat → k < 12 →
        b.extractLsb' (45 + 8 * k) 8 = b'.extractLsb' (45 + 8 * k) 8) →
    decode b = decode b'

/-- spec/30_encoding.md R65: where each field of a packed request stands, an INBUF byte that is not given being 0. -/
def Obligations.RequestFieldsStandAtTheirBits : Prop :=
  ∀ (op : BitVec 3) (val : BitVec 32) (ext rtr : Bool) (buf : InBuf),
    (∀ j, j < 3 → (packRequest op val ext rtr buf).getLsbD j = op.getLsbD j) ∧
    (∀ j, j < 32 → (packRequest op val ext rtr buf).getLsbD (3 + j) = val.getLsbD j) ∧
    (packRequest op val ext rtr buf).getLsbD 35 = ext ∧
    (packRequest op val ext rtr buf).getLsbD 36 = rtr ∧
    (∀ j, j < 8 → (packRequest op val ext rtr buf).getLsbD (37 + j) = buf.inlen.getLsbD j) ∧
    (∀ k j, k < 12 → j < 8 →
      (packRequest op val ext rtr buf).getLsbD (45 + 8 * k + j) = (buf.bytes.getD k 0#8).getLsbD j)

/-- spec/95_test_vectors.md sections 3 and 4, packed requests written out there. -/
def Obligations.SpecRequestWordsDecode : Prop :=
  decodeTableWord 144 0x3FF8 = some (.idnew 0x7FF#32 false false) ∧
  decodeTableWord 144 0x891A2B003 = some (.mask 0x12345600#32 true false) ∧
  decodeTableWord 144 0x0100008000000002 = some (.iddec { inlen := 4#8, bytes := [0x00#8, 0x08#8, 0x00#8, 0x00#8] }) ∧
  decodeTableWord 144 0x18FFFFF803 = some (.mask 0x1FFFFF00#32 true true) ∧
  decodeTableWord 144 0x15BBC0400000091C =
    some (.frnew 0x123#32 false false { inlen := 2#8, bytes := [0xDE#8, 0xAD#8] }) ∧
  decodeTableWord 144 0x7 = none

/-- spec/30_encoding.md R65, R66, R70: encoding and decoding drop no operand bit. -/
def Obligations.DecodeOfEncodeIsTheInstruction : Prop :=
  ∀ i : Instr, i.wellFormed = true → decode (encode i) = .ok i

/-! ## The Identifier Codec -/

/-- spec/40_identifier.md R80: IDNEW at the operation level, its response at the port, its encoding. -/
def Obligations.IdnewChecksTheRangeAndKeepsTheValue : Prop :=
  (∀ (v : Nat) (e r : Bool), Formula.outOfRange v e → idnew v e r = .rangeError) ∧
  (∀ (v : Nat) (e r : Bool), ¬ Formula.outOfRange v e →
    ∃ x, idnew v e r = .ok x ∧ x.id.value.toNat = v ∧ x.id.extended = e ∧ x.id.remote = r) ∧
  (∀ (val : BitVec 32) (ext rtr : Bool) (s : State), Formula.outOfRange val.toNat ext →
    exec (.idnew val ext rtr) s = .next (respond
      { err := .range, oval := none, oext := none, ortr := none, oword := none, olen := none, obuf := [] } s)) ∧
  (∀ (val : BitVec 32) (ext rtr : Bool) (s : State), ¬ Formula.outOfRange val.toNat ext →
    exec (.idnew val ext rtr) s = .next (respond
      { err := .ok, oval := some (BitVec.ofNat 29 val.toNat), oext := some ext, ortr := some rtr,
        oword := none, olen := none, obuf := [] } s)) ∧
  (∀ b : ReqBundle, b.extractLsb' 0 3 = 0b000#3 →
    decode b = .ok (.idnew (b.extractLsb' 3 32) (b.getLsbD 35) (b.getLsbD 36)))

/-- spec/40_identifier.md R81; spec/10_state.md R28. -/
def Obligations.IdnewReturnsOnlyValidIdentifiers : Prop :=
  ∀ (v : Nat) (e r : Bool) (x : ValidIdentifier), idnew v e r = .ok x →
    ((x.id.extended = false ∧ x.id.value.toNat ≤ 0x7FF) ∨ (x.id.extended = true ∧ x.id.value.toNat ≤ 0x1FFFFFFF)) ∧
    x.id.value.toNat = v ∧ x.id.extended = e ∧ x.id.remote = r

/-- spec/40_identifier.md R83; the fields its response defines, spec/30_encoding.md R69. -/
def Obligations.IdencPacksTheWordLittleEndian : Prop :=
  (∀ id : Identifier, idenc id = Formula.bytes (Formula.word id.value.toNat id.extended id.remote)) ∧
  (∀ (val : BitVec 32) (ext rtr : Bool) (s : State),
    exec (.idenc val ext rtr) s = .next (respond
      { err := .ok, oval := none, oext := none, ortr := none,
        oword := some (BitVec.ofNat 32 (Formula.word val.toNat ext rtr)), olen := some 4#4,
        obuf := Formula.bytes (Formula.word val.toNat ext rtr) } s)) ∧
  (∀ b : ReqBundle, b.extractLsb' 0 3 = 0b001#3 →
    decode b = .ok (.idenc (b.extractLsb' 3 32) (b.getLsbD 35) (b.getLsbD 36)))

/-- spec/40_identifier.md R86: LengthError for every length but 4, and no range check. -/
def Obligations.IddecUnpacksExactlyFourBytes : Prop :=
  (∀ b : List Byte, b.length ≠ 4 → iddec b = .lengthError) ∧
  (∀ b0 b1 b2 b3 : Byte, ∃ id, iddec [b0, b1, b2, b3] = .ok id ∧ Formula.fields (Formula.le32 b0 b1 b2 b3) id) ∧
  (∀ (buf : InBuf) (s : State), buf.wellFormed = true → buf.inlen ≠ 4#8 →
    exec (.iddec buf) s = .next (respond
      { err := .length, oval := none, oext := none, ortr := none, oword := none, olen := none, obuf := [] } s)) ∧
  (∀ (b0 b1 b2 b3 : Byte) (s : State), ∃ id, Formula.fields (Formula.le32 b0 b1 b2 b3) id ∧
    exec (.iddec { inlen := 4#8, bytes := [b0, b1, b2, b3] }) s = .next (respond
      { err := .ok, oval := some id.value, oext := some id.extended, ortr := some id.remote,
        oword := none, olen := none, obuf := [] } s)) ∧
  (∀ b : ReqBundle, b.extractLsb' 0 3 = 0b010#3 → ∃ buf, decode b = .ok (.iddec buf) ∧ Formula.bufferOf b buf)

/-- spec/30_encoding.md R60; spec/20_memory.md R40: which bit of which byte each field of an identifier is, sent and
received. -/
def Obligations.IdentifierBitsStandAtTheirBytes : Prop :=
  (∀ id : Identifier, ∃ b0 b1 b2 b3 : Byte, idenc id = [b0, b1, b2, b3] ∧
    (∀ j, j < 8 → b0.getLsbD j = id.value.getLsbD j) ∧
    (∀ j, j < 8 → b1.getLsbD j = id.value.getLsbD (8 + j)) ∧
    (∀ j, j < 8 → b2.getLsbD j = id.value.getLsbD (16 + j)) ∧
    (∀ j, j < 5 → b3.getLsbD j = id.value.getLsbD (24 + j)) ∧
    b3.getLsbD 5 = id.extended ∧ b3.getLsbD 6 = id.remote ∧ b3.getLsbD 7 = false) ∧
  (∀ b0 b1 b2 b3 : Byte, ∃ id, iddec [b0, b1, b2, b3] = .ok id ∧
    (∀ j, j < 8 → id.value.getLsbD j = b0.getLsbD j) ∧
    (∀ j, j < 8 → id.value.getLsbD (8 + j) = b1.getLsbD j) ∧
    (∀ j, j < 8 → id.value.getLsbD (16 + j) = b2.getLsbD j) ∧
    (∀ j, j < 5 → id.value.getLsbD (24 + j) = b3.getLsbD j) ∧
    id.extended = b3.getLsbD 5 ∧ id.remote = b3.getLsbD 6)

/-- spec/30_encoding.md R62: no response of IDENC, MASK or FRENC has bit 31 of the word set, and IDDEC and FRDEC accept
a set bit 31 and ignore it. -/
def Obligations.BitThirtyOneIsNeverProducedAndIsIgnored : Prop :=
  (∀ (i : Instr) (s : State), ∃ r, exec i s = .next (respond r s) ∧
    (∀ w, r.oword = some w → w.getLsbD 31 = false) ∧
    (∀ val ext rtr, i = .idenc val ext rtr → ∀ b, r.obuf[3]? = some b → b.getLsbD 7 = false) ∧
    (∀ val ext rtr buf, i = .frenc val ext rtr buf → ∀ b, r.obuf[3]? = some b → b.getLsbD 7 = false)) ∧
  (∀ b0 b1 b2 b3 : Byte, ∃ id, iddec [b0, b1, b2, b3] = .ok id ∧ iddec [b0, b1, b2, b3 ^^^ 0x80#8] = .ok id) ∧
  (∀ (b0 b1 b2 b3 : Byte) (d : List Byte), d.length ≤ 8 →
    ∃ f, frdec (b0 :: b1 :: b2 :: b3 :: d) = .ok f ∧ frdec (b0 :: b1 :: b2 :: (b3 ^^^ 0x80#8) :: d) = .ok f)

/-- spec/40_identifier.md R88. -/
def Obligations.IddecOfIdencIsTheIdentifier : Prop :=
  ∀ id : Identifier, iddec (idenc id) = .ok id

/-- spec/40_identifier.md R89. -/
def Obligations.IdencOfIddecClearsOnlyBitThirtyOne : Prop :=
  ∀ b0 b1 b2 b3 : Byte, ∃ id, iddec [b0, b1, b2, b3] = .ok id ∧ idenc id = [b0, b1, b2, b3 &&& 0x7F#8]

/-- spec/30_encoding.md R79, with the fields and the packing formula of R61 written out. -/
def Obligations.IdentifiersAreTheWordsWithBitThirtyOneClear : Prop :=
  (∀ w : Word, w.getLsbD 31 = false →
    ∃ id, unpackWord w = id ∧ Formula.fields w.toNat id ∧ packWord id.value.toNat id.extended id.remote = w) ∧
  (∀ id : Identifier, ∃ w, packWord id.value.toNat id.extended id.remote = w ∧
    w.toNat = Formula.word id.value.toNat id.extended id.remote ∧ unpackWord w = id)

/-- spec/40_identifier.md R90; spec/10_state.md R31. -/
def Obligations.IdentifiersAreEqualIffTheirBytesAre : Prop :=
  (∀ x y : Identifier, x = y ↔ idenc x = idenc y) ∧
  (∀ x y : Identifier, x = y ↔ x.value = y.value ∧ x.extended = y.extended ∧ x.remote = y.remote) ∧
  (∀ (v : BitVec 29) (r : Bool) (w w' : Word),
    wordOfBytes (idenc { value := v, extended := false, remote := r }) = some w →
    wordOfBytes (idenc { value := v, extended := true, remote := r }) = some w' →
    w.getLsbD 29 = false ∧ w'.getLsbD 29 = true)

/-! ## MASK and filter entries -/

/-- spec/41_filter_mask.md R100: for a value of any size, with no range check; the response at the port; the encoding. -/
def Obligations.MaskPacksAnyValueWithoutCheck : Prop :=
  (∀ (v : Nat) (e r : Bool), (mask v e r).toNat = Formula.word v e r) ∧
  (∀ (val : BitVec 32) (ext rtr : Bool) (s : State),
    exec (.mask val ext rtr) s = .next (respond
      { err := .ok, oval := none, oext := none, ortr := none,
        oword := some (BitVec.ofNat 32 (Formula.word val.toNat ext rtr)), olen := none, obuf := [] } s)) ∧
  (∀ b : ReqBundle, b.extractLsb' 0 3 = 0b011#3 →
    decode b = .ok (.mask (b.extractLsb' 3 32) (b.getLsbD 35) (b.getLsbD 36)))

/-- spec/41_filter_mask.md R102. -/
def Obligations.MaskAgreesWithIdencOnIdentifiers : Prop :=
  (∀ (v : Nat) (e r : Bool) (x : ValidIdentifier), idnew v e r = .ok x →
    wordOfBytes (idenc x.id) = some (mask v e r)) ∧
  (∀ id : Identifier, wordOfBytes (idenc id) = some (mask id.value.toNat id.extended id.remote))

/-- spec/41_filter_mask.md R103: the AND identity of the full-acceptance mask, on encoded identifiers and on every word
with bit 31 clear, and on no other. The last two clauses are about the INFORMATIVE predicate of R105, which the block
does not compute (log 12): under it this mask does not accept every frame, while the entry (0, 0) does. -/
def Obligations.FullAcceptanceMaskKeepsEveryEncodedWord : Prop :=
  mask 0x1FFFFFFF true true = 0x7FFFFFFF#32 ∧
  (∀ w : Word, w.getLsbD 31 = false → mask 0x1FFFFFFF true true &&& w = w) ∧
  (∀ (id : Identifier) (w : Word), wordOfBytes (idenc id) = some w → mask 0x1FFFFFFF true true &&& w = w) ∧
  (∀ w : Word, w.getLsbD 31 = true → mask 0x1FFFFFFF true true &&& w ≠ w) ∧
  (∀ fid rx : Word,
    FilterEntry.intendedAccepts { identifierWord := fid, maskWord := mask 0x1FFFFFFF true true } rx = true ↔
      ∀ j, j < 31 → rx.getLsbD j = fid.getLsbD j) ∧
  (∀ rx : Word, FilterEntry.intendedAccepts { identifierWord := 0#32, maskWord := 0#32 } rx = true)

/-- spec/41_filter_mask.md R105 to R107, the INTENDED predicate of the consuming device, which the spec itself calls
informative and the block does not compute (log 12). -/
def Obligations.FilterEntriesReadBitByBit : Prop :=
  (∀ (f : FilterEntry) (rx : Word), f.intendedAccepts rx = true ↔
    ∀ j, j < 32 → f.maskWord.getLsbD j = true → rx.getLsbD j = f.identifierWord.getLsbD j) ∧
  (acceptAll.identifierWord = 0#32 ∧ acceptAll.maskWord = 0#32) ∧
  (∀ rx : Word, acceptAll.intendedAccepts rx = true) ∧
  (∀ x y : Identifier,
    FilterEntry.intendedAccepts
      { identifierWord := mask x.value.toNat x.extended x.remote, maskWord := mask 0x1FFFFFFF true false }
      (mask y.value.toNat y.extended y.remote) = true ↔ x.value = y.value ∧ x.extended = y.extended)

/-! ## The Frame Codec -/

/-- spec/42_frame.md R120. -/
def Obligations.FrnewChecksThePayloadLength : Prop :=
  (∀ (id : Identifier) (d : List Byte), d.length > 8 → frnew id d = .lengthError) ∧
  (∀ (id : Identifier) (d : List Byte), d.length ≤ 8 → ∃ f, frnew id d = .ok f ∧ f.id = id ∧ f.data = d) ∧
  (∀ (val : BitVec 32) (ext rtr : Bool) (buf : InBuf) (s : State), buf.wellFormed = true → buf.inlen.toNat > 8 →
    exec (.frnew val ext rtr buf) s = .next (respond
      { err := .length, oval := none, oext := none, ortr := none, oword := none, olen := none, obuf := [] } s)) ∧
  (∀ (val : BitVec 32) (ext rtr : Bool) (buf : InBuf) (s : State), buf.wellFormed = true → buf.inlen.toNat ≤ 8 →
    exec (.frnew val ext rtr buf) s = .next (respond
      { err := .ok, oval := some (BitVec.ofNat 29 (val.toNat &&& 0x1FFFFFFF)), oext := some ext, ortr := some rtr,
        oword := none, olen := some (BitVec.ofNat 4 buf.inlen.toNat), obuf := buf.bytes } s)) ∧
  (∀ b : ReqBundle, b.extractLsb' 0 3 = 0b100#3 →
    ∃ buf, decode b = .ok (.frnew (b.extractLsb' 3 32) (b.getLsbD 35) (b.getLsbD 36) buf) ∧ Formula.bufferOf b buf)

/-- spec/42_frame.md R124, R126. -/
def Obligations.FrencPutsThePayloadAfterTheWord : Prop :=
  (∀ f : Frame, frenc f = Formula.bytes (Formula.word f.id.value.toNat f.id.extended f.id.remote) ++ f.data) ∧
  (∀ (val : BitVec 32) (ext rtr : Bool) (buf : InBuf) (s : State), buf.wellFormed = true → buf.inlen.toNat > 8 →
    exec (.frenc val ext rtr buf) s = .next (respond
      { err := .length, oval := none, oext := none, ortr := none, oword := none, olen := none, obuf := [] } s)) ∧
  (∀ (val : BitVec 32) (ext rtr : Bool) (buf : InBuf) (s : State), buf.wellFormed = true → buf.inlen.toNat ≤ 8 →
    exec (.frenc val ext rtr buf) s = .next (respond
      { err := .ok, oval := none, oext := none, ortr := none, oword := none,
        olen := some (BitVec.ofNat 4 (4 + buf.inlen.toNat)),
        obuf := Formula.bytes (Formula.word val.toNat ext rtr) ++ buf.bytes } s)) ∧
  (∀ b : ReqBundle, b.extractLsb' 0 3 = 0b101#3 →
    ∃ buf, decode b = .ok (.frenc (b.extractLsb' 3 32) (b.getLsbD 35) (b.getLsbD 36) buf) ∧ Formula.bufferOf b buf)

/-- spec/42_frame.md R130. -/
def Obligations.FrdecSplitsWordAndPayload : Prop :=
  (∀ b : List Byte, b.length < 4 ∨ b.length > 12 → frdec b = .lengthError) ∧
  (∀ (b0 b1 b2 b3 : Byte) (d : List Byte), d.length ≤ 8 →
    ∃ f, frdec (b0 :: b1 :: b2 :: b3 :: d) = .ok f ∧ Formula.fields (Formula.le32 b0 b1 b2 b3) f.id ∧ f.data = d) ∧
  (∀ (buf : InBuf) (s : State), buf.wellFormed = true → buf.inlen.toNat < 4 ∨ buf.inlen.toNat > 12 →
    exec (.frdec buf) s = .next (respond
      { err := .length, oval := none, oext := none, ortr := none, oword := none, olen := none, obuf := [] } s)) ∧
  (∀ (b0 b1 b2 b3 : Byte) (d : List Byte) (inlen : BitVec 8) (s : State), d.length ≤ 8 → inlen.toNat = 4 + d.length →
    ∃ id, Formula.fields (Formula.le32 b0 b1 b2 b3) id ∧
      exec (.frdec { inlen := inlen, bytes := b0 :: b1 :: b2 :: b3 :: d }) s = .next (respond
        { err := .ok, oval := some id.value, oext := some id.extended, ortr := some id.remote,
          oword := none, olen := some (BitVec.ofNat 4 d.length), obuf := d } s)) ∧
  (∀ b : ReqBundle, b.extractLsb' 0 3 = 0b110#3 → ∃ buf, decode b = .ok (.frdec buf) ∧ Formula.bufferOf b buf)

/-- spec/42_frame.md R129, R125. -/
def Obligations.FrameBuffersAreFourToTwelveBytes : Prop :=
  (∀ f : Frame, (frenc f).length = 4 + f.data.length ∧ 4 ≤ (frenc f).length ∧ (frenc f).length ≤ 12) ∧
  (∀ (b : List Byte) (f : Frame), frdec b = .ok f → 4 ≤ b.length ∧ b.length ≤ 12 ∧ f.data.length = b.length - 4)

/-- spec/20_memory.md R42; spec/42_frame.md R121, R127: payload byte k is buffer byte 4+k, in a remote frame too. -/
def Obligations.PayloadBytesAreCarriedVerbatim : Prop :=
  (∀ (f : Frame) (k : Nat), (frenc f)[4 + k]? = f.data[k]?) ∧
  (∀ (b : List Byte) (f : Frame), frdec b = .ok f → ∀ k : Nat, f.data[k]? = b[4 + k]?) ∧
  (∀ (v : BitVec 29) (e : Bool) (d : List Byte), d.length ≤ 8 →
    ∃ f, frnew { value := v, extended := e, remote := true } d = .ok f ∧ f.data = d ∧ frdec (frenc f) = .ok f)

/-- spec/42_frame.md R133. -/
def Obligations.FrdecOfFrencIsTheFrame : Prop :=
  ∀ f : Frame, frdec (frenc f) = .ok f

/-- spec/42_frame.md R134. -/
def Obligations.FrencOfFrdecClearsOnlyBitThirtyOne : Prop :=
  ∀ (b0 b1 b2 b3 : Byte) (d : List Byte), d.length ≤ 8 →
    ∃ f, frdec (b0 :: b1 :: b2 :: b3 :: d) = .ok f ∧ frenc f = b0 :: b1 :: b2 :: (b3 &&& 0x7F#8) :: d

/-- spec/42_frame.md R128; spec/10_state.md R32. -/
def Obligations.FramesAreEqualIffTheirBuffersAre : Prop :=
  (∀ f g : Frame, f = g ↔ frenc f = frenc g) ∧ (∀ f g : Frame, f = g ↔ f.id = g.id ∧ f.data = g.data)

/-! ## Operands and responses, over all operations -/

/-- spec/30_encoding.md R70: VAL bits 31..29 of an identifier operand, and of MASK's value, are discarded without
error; IDNEW keeps them and raises RangeError. -/
def Obligations.HighValueBitsAreDiscardedExceptByIdnew : Prop :=
  ∀ (val : BitVec 32) (ext rtr : Bool) (buf : InBuf) (s : State),
    exec (.idenc val ext rtr) s = exec (.idenc (val &&& 0x1FFFFFFF#32) ext rtr) s ∧
    exec (.mask val ext rtr) s = exec (.mask (val &&& 0x1FFFFFFF#32) ext rtr) s ∧
    exec (.frnew val ext rtr buf) s = exec (.frnew (val &&& 0x1FFFFFFF#32) ext rtr buf) s ∧
    exec (.frenc val ext rtr buf) s = exec (.frenc (val &&& 0x1FFFFFFF#32) ext rtr buf) s ∧
    (val &&& 0x1FFFFFFF#32 ≠ val → exec (.idnew val ext rtr) s = .next (respond (errorResponse .range) s))

/-- spec/20_memory.md R47; spec/10_state.md R21. Every operation, on every state, takes a next state in which one
request left, one response came, and nothing else changed; the response is the same whatever the state is. How State
holds requests and responses (log 1), and that with nothing in progress the response answers no request (log 5), is the
model's choice. -/
def Obligations.ResponseDependsOnTheRequestAlone : Prop :=
  ∀ i : Instr, ∃ r : Response, ∀ s : State,
    exec i s = .next
      { requests := s.requests.tail
        responses := s.responses ++ [{ request := s.requests.head?, response := r }] }

/-- spec/60_exceptions.md R142, the port level's table of errors. -/
def Obligations.ErrorsAreExactlyThoseOfTheTable : Prop :=
  ∀ (i : Instr) (s : State), i.wellFormed = true → ∃ r, exec i s = .next (respond r s) ∧
    match i with
    | .idnew val ext _ => (r.err = .range ↔ Formula.outOfRange val.toNat ext) ∧ r.err ≠ .length
    | .idenc _ _ _ => r.err = .ok
    | .iddec buf => (r.err = .length ↔ buf.inlen.toNat ≠ 4) ∧ r.err ≠ .range
    | .mask _ _ _ => r.err = .ok
    | .frnew _ _ _ buf => (r.err = .length ↔ buf.inlen.toNat > 8) ∧ r.err ≠ .range
    | .frenc _ _ _ buf => (r.err = .length ↔ buf.inlen.toNat > 8) ∧ r.err ≠ .range
    | .frdec buf => (r.err = .length ↔ (buf.inlen.toNat < 4 ∨ buf.inlen.toNat > 12)) ∧ r.err ≠ .range

/-- spec/60_exceptions.md R144. -/
def Obligations.ErrorGivesNoPartialResult : Prop :=
  ∀ (i : Instr) (s : State), ∃ r, exec i s = .next (respond r s) ∧
    (r.err ≠ .ok → ∀ f : Field, f ≠ .err → r.read f = none)

/-- spec/30_encoding.md R69, the column "on OK, defines", row by row: which of OVAL, OEXT, ORTR, OWORD, OLEN hold a
value; OBUF[k] holds one exactly below OLEN; IDENC's OLEN and OWORD. -/
def Obligations.DefinedFieldsAreThoseOfTheTable : Prop :=
  ∀ (i : Instr) (s : State), i.wellFormed = true → ∃ r, exec i s = .next (respond r s) ∧
    (r.err = .ok →
      [r.read .oval, r.read .oext, r.read .ortr, r.read .oword, r.read .olen].map Option.isSome =
        (match i with
          | .idnew _ _ _ => [true, true, true, false, false]
          | .idenc _ _ _ => [false, false, false, true, true]
          | .iddec _ => [true, true, true, false, false]
          | .mask _ _ _ => [false, false, false, true, false]
          | .frnew _ _ _ _ => [true, true, true, false, true]
          | .frenc _ _ _ _ => [false, false, false, false, true]
          | .frdec _ => [true, true, true, false, true]) ∧
      (∀ k : Fin 12, (r.read (.obuf k)).isSome = true ↔ ∃ n, r.read .olen = some n ∧ k.val < n) ∧
      (∀ val ext rtr, i = .idenc val ext rtr → r.read .olen = some 4 ∧ r.oword = wordOfBytes r.obuf))

/-- spec/30_encoding.md R68. -/
def Obligations.ErrorCodesAreThoseOfTheTable : Prop :=
  ErrStatus.code .ok = 0b00#2 ∧ ErrStatus.code .range = 0b01#2 ∧ ErrStatus.code .length = 0b10#2 ∧
  (∀ e : ErrStatus, statusOfCode e.code = .ok e) ∧
  statusOfCode 0b11#2 = .error .undefinedStatus ∧
  (∀ (i : Instr) (s : State), ∃ r n, exec i s = .next (respond r s) ∧ r.read .err = some n ∧ n < 3)

/-- spec/30_encoding.md R67: the bits of a response; a bit of a field that holds no value holds none. -/
def Obligations.ResponseFieldsStandAtTheirBits : Prop :=
  ∀ r : Response,
    (∀ j, j < 2 → r.bit j = some (r.err.code.getLsbD j)) ∧
    (∀ j, j < 29 → r.bit (2 + j) = r.oval.map (fun v => v.getLsbD j)) ∧
    r.bit 31 = r.oext ∧ r.bit 32 = r.ortr ∧
    (∀ j, j < 32 → r.bit (33 + j) = r.oword.map (fun w => w.getLsbD j)) ∧
    (∀ j, j < 4 → r.bit (65 + j) = r.olen.map (fun n => n.getLsbD j)) ∧
    (∀ k j, k < 12 → j < 8 → r.bit (69 + 8 * k + j) = r.obuf[k]?.map (fun b => b.getLsbD j)) ∧
    (∀ n, 165 ≤ n → r.bit n = none)

/-! ## The two levels -/

/-- spec/30_encoding.md R78, with R65 and R70: presented at the port, every operation-level request gets the response
that carries its operation-level answer; values of any size, buffers of any length. -/
def Obligations.PortAndOperationLevelsGiveTheSameResponse : Prop :=
  ∀ (q : OpRequest) (s : State),
    q.present.wellFormed = true ∧
    exec q.present s = .next (respond (respondWith OpValue.define q.answer) s)

/-- spec/30_encoding.md R76. -/
def Obligations.PseudoOperationsExpand : Prop :=
  (∀ (v : Nat) (e r : Bool), Formula.outOfRange v e → idword v e r = .rangeError) ∧
  (∀ (v : Nat) (e r : Bool), ¬ Formula.outOfRange v e → idword v e r = .ok (Formula.bytes (Formula.word v e r))) ∧
  (∀ (v : Nat) (e r : Bool) (d : List Byte), Formula.outOfRange v e → frameBytes v e r d = .rangeError) ∧
  (∀ (v : Nat) (e r : Bool) (d : List Byte), ¬ Formula.outOfRange v e → d.length > 8 →
    frameBytes v e r d = .lengthError) ∧
  (∀ (v : Nat) (e r : Bool) (d : List Byte), ¬ Formula.outOfRange v e → d.length ≤ 8 →
    frameBytes v e r d = .ok (Formula.bytes (Formula.word v e r) ++ d)) ∧
  acceptAll = { identifierWord := 0#32, maskWord := 0#32 }

/-- spec/30_encoding.md R76, R75: the request lines IDWORD and FRAME expand to, run through the port one request after
another by any requester, each at any place among the requests in progress, give the pseudo-operation's result under
its name (none on an error) and issue no request after one that gave an error: beside the `k` requests that were
served before, exactly the requests of the expansion get a response. How the requester keeps names, and that no other
requester issues between two lines, is the model's choice (log 17). -/
def Obligations.PseudoOperationLinesRunAsTheyExpand : Prop :=
  ∀ (who v : Nat) (e r : Bool) (d : List Byte) (t f out : String) (env : Env) (s : State) (p1 p2 p3 : Nat),
    (∀ q, q ∈ s.requests → q.bundle.extractLsb' 0 3 ≠ 0b111#3) →
    (∃ env' s' k, runProgram who (List.zip [p1, p2] (idwordLines v e r t out)) env s = .next (env', s') ∧
      k ≤ s.requests.length ∧ s'.requests = s.requests.drop k ∧
      (∀ b, idword v e r = .ok b →
        env'.lookup? out = some (.bytes b) ∧ s'.responses.length = s.responses.length + k + 2) ∧
      ((∀ b, idword v e r ≠ .ok b) → env'.lookup? out = none ∧ s'.responses.length = s.responses.length + k + 1 ∧
        s'.responses.getLast?.map Delivery.response = some (errorResponse .range))) ∧
    (∃ env' s' k, runProgram who (List.zip [p1, p2, p3] (frameLines v e r d t f out)) env s = .next (env', s') ∧
      k ≤ s.requests.length ∧ s'.requests = s.requests.drop k ∧
      (∀ b, frameBytes v e r d = .ok b →
        env'.lookup? out = some (.bytes b) ∧ s'.responses.length = s.responses.length + k + 3) ∧
      (frameBytes v e r d = .lengthError → env'.lookup? out = none ∧
        s'.responses.length = s.responses.length + k + 2 ∧
        s'.responses.getLast?.map Delivery.response = some (errorResponse .length)) ∧
      (frameBytes v e r d = .rangeError → env'.lookup? out = none ∧
        s'.responses.length = s.responses.length + k + 1 ∧
        s'.responses.getLast?.map Delivery.response = some (errorResponse .range)))

/-! ## Whole machine: requesters, reads, reset -/

/-- spec/60_exceptions.md R157: a request whose operation is not reserved is answered in one step, and no step faults. -/
def Obligations.NoRequestIsStuck : Prop :=
  (∀ (s : State) (q : Request) (rest : List Request), s.requests = q :: rest → q.bundle.extractLsb' 0 3 ≠ 0b111#3 →
    ∃ r, step s = .next
      { requests := rest, responses := s.responses ++ [{ request := some q, response := r }] }) ∧
  (∀ (s : State) (e : Fault), step s ≠ .fault e)

/-- spec/60_exceptions.md R150, R154: the response does not depend on which requester asks. -/
def Obligations.AnyRequesterGetsTheSameResponse : Prop :=
  ∀ (b : ReqBundle), b.extractLsb' 0 3 ≠ 0b111#3 → ∃ r, ∀ who : Nat,
    step { requests := [{ requester := who, bundle := b }], responses := [] } =
      .next { requests := [], responses := [{ request := some { requester := who, bundle := b }, response := r }] }

/-- spec/20_memory.md R50: whatever requests are in progress, in whatever order, each gets the response it would get
alone. That the order of the list is the order of service is the model's choice (log 2); the statement is for every
order. -/
def Obligations.EveryInterleavingAnswersEachRequestAsAlone : Prop :=
  ∀ s : State, (∀ q, q ∈ s.requests → q.bundle.extractLsb' 0 3 ≠ 0b111#3) →
    ∃ rs : List Response, rs.length = s.requests.length ∧
      runSteps s.requests.length s = .next
        { requests := []
          responses := s.responses ++
            List.zipWith (fun q r => { request := some q, response := r }) s.requests rs } ∧
      ∀ (k : Nat) (q : Request) (r : Response), s.requests[k]? = some q → rs[k]? = some r →
        step { requests := [q], responses := [] } =
          .next { requests := [], responses := [{ request := some q, response := r }] }

/-- From spec/10_state.md R39: no other requester has a part in what one requester gets. That each single response
depends on its request alone is in the statements before this one. Two runs that differ in every
other requester's requests, in their number and in the order of service give it the same responses. -/
def Obligations.RequestersDoNotInterfere : Prop :=
  ∀ (who : Nat) (s t : State),
    (∀ q, q ∈ s.requests → q.bundle.extractLsb' 0 3 ≠ 0b111#3) →
    (∀ q, q ∈ t.requests → q.bundle.extractLsb' 0 3 ≠ 0b111#3) →
    s.requests.filter (fun q => q.requester == who) = t.requests.filter (fun q => q.requester == who) →
    s.responsesTo who = t.responsesTo who →
    ∃ s' t', runSteps s.requests.length s = .next s' ∧
      runSteps t.requests.length t = .next t' ∧
      s'.responsesTo who = t'.responsesTo who

/-- spec/10_state.md R37, R39: a new request is added and nothing is lost; it comes after its requester's own requests,
and wherever else among those in progress is open (log 2); a read changes nothing. -/
def Obligations.IssuingAddsOneRequestAndReadingChangesNothing : Prop :=
  (∀ (place : Nat) (q : Request) (s : State), ∃ before after, s.requests = before ++ after ∧
    (∀ p, p ∈ after → p.requester ≠ q.requester) ∧
    (Move.issue place q).apply s = .next { requests := before ++ q :: after, responses := s.responses }) ∧
  (∀ (q : Request) (before after : List Request) (ds : List Delivery),
    (∀ p, p ∈ after → p.requester ≠ q.requester) → ∃ place,
    (Move.issue place q).apply { requests := before ++ after, responses := ds } =
      .next { requests := before ++ q :: after, responses := ds }) ∧
  (∀ (who n : Nat) (f : Field) (s t : State), (Move.read who n f).apply s = .next t → t = s)

/-- spec/10_state.md R36; spec/30_encoding.md R67: a read answers the value a field holds, and faults exactly where it
holds none. -/
def Obligations.ReadingAFieldWithoutAValueFaults : Prop :=
  ∀ (who n : Nat) (f : Field) (s : State),
    (∀ r v, (s.responsesTo who)[n]? = some r → r.read f = some v →
      readField who n f s = .ok v ∧ (Move.read who n f).apply s = .next s) ∧
    (∀ r, (s.responsesTo who)[n]? = some r → r.read f = none →
      readField who n f s = .error (.noValue f) ∧ (Move.read who n f).apply s = .fault (.noValue f)) ∧
    ((s.responsesTo who)[n]? = none →
      readField who n f s = .error (.noValue f) ∧ (Move.read who n f).apply s = .fault (.noValue f))

/-- spec/70_reset_and_hazards.md R160 to R163; that reset empties every requester's list is the model's choice (log 6). -/
def Obligations.ResetForgetsEverything : Prop :=
  (∀ s : State, ∃ t, Move.reset.apply s = .next t ∧
    (∀ who n f, (Move.read who n f).apply t = .fault (.noValue f)) ∧
    (∀ k, runSteps k t = .next t)) ∧
  (∀ (s t : State) (q : Request) (place : Nat), Move.reset.apply s = .next t → q.bundle.extractLsb' 0 3 ≠ 0b111#3 →
    ∃ r, step (issue place q t) = .next
        { requests := [], responses := [{ request := some q, response := r }] } ∧
      ∀ u : State, step { u with requests := [q] } = .next
        { requests := [], responses := u.responses ++ [{ request := some q, response := r }] })

/-- Every step of the block keeps a safe state safe: every response is legal for the operation of the request it
answers, the fields of that operation's row and no other holding values (spec/30_encoding.md R62, R67, R69;
spec/20_memory.md R45; spec/60_exceptions.md R144, R149). -/
def Obligations.EveryStepKeepsTheStateSafe : Prop :=
  ∀ s s' : State, s.safe = true → step s = .next s' → s'.safe = true

/-- The state after reset is safe, and every action of the whole system, a step of the block or a requester's move or a
reset, keeps a safe state safe. -/
def Obligations.EveryActionKeepsTheStateSafe : Prop :=
  State.reset.safe = true ∧
  ∀ (a : Option Move) (s t : State), s.safe = true → act a s = .next t → t.safe = true

/-- spec/10_state.md R37, "a response that is the operation's function of the request", R39; spec/20_memory.md R50:
every response held is the one its request gets alone. It holds after reset, and every action keeps it. -/
def Obligations.EveryActionKeepsResponsesFaithful : Prop :=
  State.reset.faithful ∧
  ∀ (a : Option Move) (s t : State), s.faithful → act a s = .next t → t.faithful

/-- spec/10_state.md R37, per requester: every action but a reset keeps the requester's ledger, its answered requests and
then those in progress, and issuing adds the new request at its end. So no request is lost, answered twice or
overtaken by a later one of its requester (log 2). From reset, with no further reset, the ledger is what was issued. -/
def Obligations.EveryIssuedRequestHasOneResponseOrIsInProgress : Prop :=
  (∀ (who : Nat) (a : Option Move) (s t : State), a ≠ some .reset → act a s = .next t →
    t.ledger who = s.ledger who ++
      (match a with
        | some (.issue _ q) => if q.requester = who then [q] else []
        | _ => [])) ∧
  (∀ (who : Nat) (actions : List (Option Move)) (s : State),
    (∀ a, a ∈ actions → a ≠ some .reset) → actAll actions State.reset = .next s →
      s.ledger who = actions.filterMap fun a =>
        match a with
        | some (.issue _ q) => if q.requester = who then some q else none
        | _ => none)
end

