-- ==== Sys2Proof/Laws/State.lean ====
section
/-! SUPPORT. The small lemmas of State and Response: one per field per update, so that no proof unfolds a record
update. -/

namespace Sys2Proof.Machine

@[simp] theorem reset_requests : State.reset.requests = [] := rfl
@[simp] theorem reset_responses : State.reset.responses = [] := rfl

@[simp] theorem respond_requests (r : Response) (s : State) :
    (respond r s).requests = s.requests.tail := rfl
@[simp] theorem respond_responses (r : Response) (s : State) :
    (respond r s).responses =
      s.responses ++ [{ request := s.requests.head?, response := r }] := rfl

/-- On a state with a request in progress, the response answers it. -/
theorem respond_cons {s : State} {q : Request} {rest : List Request} (h : s.requests = q :: rest) (r : Response) :
    respond r s =
      { requests := rest, responses := s.responses ++ [{ request := some q, response := r }] } := by
  simp [respond, h]

/-- The response a state got can be read off it. -/
theorem respond_injective {r r' : Response} {s : State} (h : respond r s = respond r' s) : r = r' := by
  simpa [respond] using h

@[simp] theorem issue_responses (place : Nat) (q : Request) (s : State) :
    (issue place q s).responses = s.responses := rfl
@[simp] theorem issue_requests (place : Nat) (q : Request) (s : State) :
    (issue place q s).requests =
      s.requests.take (issuePlace place q.requester s.requests) ++
        q :: s.requests.drop (issuePlace place q.requester s.requests) := rfl

/-- A requester with nothing in progress has no request that a new one must come after. -/
theorem ownPrefix_of_absent {who : Nat} {rs : List Request} (h : ∀ q, q ∈ rs → q.requester ≠ who) :
    ownPrefix who rs = 0 := by
  induction rs with
  | nil => rfl
  | cons q rest ih =>
    rw [ownPrefix, ih fun q' hq => h q' (List.mem_cons_of_mem _ hq)]
    simp [h q List.mem_cons_self]

/-- All requests of a requester stand within its own prefix. -/
theorem drop_ownPrefix (who : Nat) (rs : List Request) :
    ∀ q, q ∈ rs.drop (ownPrefix who rs) → q.requester ≠ who := by
  induction rs with
  | nil => simp
  | cons q rest ih =>
    rw [ownPrefix]
    cases h : ownPrefix who rest with
    | succ n => simpa [h] using ih
    | zero =>
      rw [h] at ih
      by_cases hq : q.requester = who
      · simpa [hq] using ih
      · simpa [hq] using ih

/-- A new request comes after every other one of its requester (spec/10_state.md R37). -/
theorem drop_issuePlace (place who : Nat) (rs : List Request) :
    ∀ q, q ∈ rs.drop (issuePlace place who rs) → q.requester ≠ who := by
  intro q hq
  by_cases h : rs.length ≤ max place (ownPrefix who rs)
  · rw [issuePlace, Nat.min_eq_left h, List.drop_length] at hq
    cases hq
  · rw [issuePlace, Nat.min_eq_right (by omega)] at hq
    have split : max place (ownPrefix who rs) = ownPrefix who rs + (place - ownPrefix who rs) := by omega
    rw [split, ← List.drop_drop] at hq
    exact drop_ownPrefix who rs q (List.mem_of_mem_drop hq)

theorem issuePlace_le (place who : Nat) (rs : List Request) : issuePlace place who rs ≤ rs.length :=
  Nat.min_le_left _ _

/-- The fresh requester has nothing in progress. -/
theorem requester_lt_fresh {rs : List Request} : ∀ q, q ∈ rs → q.requester < freshRequester rs := by
  induction rs with
  | nil => simp
  | cons p rest ih =>
    intro q hq
    rw [freshRequester]
    rcases List.mem_cons.1 hq with rfl | hq
    · omega
    · have := ih q hq; omega
@[simp] theorem assertReset_eq (s : State) : assertReset s = State.reset := rfl

@[simp] theorem withFetchWord_requests (s : State) (nbits w : Nat) :
    (s.withFetchWord nbits w).requests =
      { requester := freshRequester s.requests, bundle := bundleOfTableWord nbits w } :: s.requests := rfl
@[simp] theorem withFetchWord_responses (s : State) (nbits w : Nat) :
    (s.withFetchWord nbits w).responses = s.responses := rfl

/-- Placing a table word is a requester's move: one with nothing in progress issues it, to be served next. -/
theorem withFetchWord_eq_issue (s : State) (nbits w : Nat) :
    s.withFetchWord nbits w =
      issue 0 { requester := freshRequester s.requests, bundle := bundleOfTableWord nbits w } s := by
  have none : ownPrefix (freshRequester s.requests) s.requests = 0 :=
    ownPrefix_of_absent fun q hq => Nat.ne_of_lt (requester_lt_fresh q hq)
  simp [State.withFetchWord, issue, issuePlace, none]

section Response
variable (r : Response) (id : Identifier) (w : Word) (b : List Byte) (e : ErrStatus)

@[simp] theorem bare_err : (Response.bare e).err = e := rfl
@[simp] theorem bare_oval : (Response.bare e).oval = none := rfl
@[simp] theorem bare_oext : (Response.bare e).oext = none := rfl
@[simp] theorem bare_ortr : (Response.bare e).ortr = none := rfl
@[simp] theorem bare_oword : (Response.bare e).oword = none := rfl
@[simp] theorem bare_olen : (Response.bare e).olen = none := rfl
@[simp] theorem bare_obuf : (Response.bare e).obuf = [] := rfl

@[simp] theorem withIdentifier_err : (r.withIdentifier id).err = r.err := rfl
@[simp] theorem withIdentifier_oval : (r.withIdentifier id).oval = some id.value := rfl
@[simp] theorem withIdentifier_oext : (r.withIdentifier id).oext = some id.extended := rfl
@[simp] theorem withIdentifier_ortr : (r.withIdentifier id).ortr = some id.remote := rfl
@[simp] theorem withIdentifier_oword : (r.withIdentifier id).oword = r.oword := rfl
@[simp] theorem withIdentifier_olen : (r.withIdentifier id).olen = r.olen := rfl
@[simp] theorem withIdentifier_obuf : (r.withIdentifier id).obuf = r.obuf := rfl

@[simp] theorem withWord_err : (r.withWord w).err = r.err := rfl
@[simp] theorem withWord_oval : (r.withWord w).oval = r.oval := rfl
@[simp] theorem withWord_oext : (r.withWord w).oext = r.oext := rfl
@[simp] theorem withWord_ortr : (r.withWord w).ortr = r.ortr := rfl
@[simp] theorem withWord_oword : (r.withWord w).oword = some w := rfl
@[simp] theorem withWord_olen : (r.withWord w).olen = r.olen := rfl
@[simp] theorem withWord_obuf : (r.withWord w).obuf = r.obuf := rfl

@[simp] theorem withBuffer_err : (r.withBuffer b).err = r.err := rfl
@[simp] theorem withBuffer_oval : (r.withBuffer b).oval = r.oval := rfl
@[simp] theorem withBuffer_oext : (r.withBuffer b).oext = r.oext := rfl
@[simp] theorem withBuffer_ortr : (r.withBuffer b).ortr = r.ortr := rfl
@[simp] theorem withBuffer_oword : (r.withBuffer b).oword = r.oword := rfl
@[simp] theorem withBuffer_olen : (r.withBuffer b).olen = some (BitVec.ofNat 4 b.length) := rfl
@[simp] theorem withBuffer_obuf : (r.withBuffer b).obuf = b := rfl

end Response

end Sys2Proof.Machine
end

