-- ==== Sys2Proof/Laws/Ops.lean ====
section
/-! SUPPORT. One lemma per shared operation, saying what it computes bit by bit or case by case. Proofs cite these and
do not unfold the operations. -/

namespace Sys2Proof.Machine

theorem canIdMask_testBit (i : Nat) : Config.canIdMask.testBit i = decide (i < 29) :=
  Nat.testBit_two_pow_sub_one 29 i

theorem extendedBits_getLsbD (e : Bool) (i : Nat) : (extendedBits e).getLsbD i = (decide (i = 29) && e) := by
  cases e with
  | false => simp [extendedBits]
  | true =>
    have h : Config.canIdExtended = BitVec.twoPow 32 29 := by decide
    simp only [extendedBits, if_true, h, BitVec.getLsbD_twoPow]
    by_cases hi : i = 29
    · simp [hi]
    · simp [hi, Ne.symm hi]

theorem remoteBits_getLsbD (r : Bool) (i : Nat) : (remoteBits r).getLsbD i = (decide (i = 30) && r) := by
  cases r with
  | false => simp [remoteBits]
  | true =>
    have h : Config.canIdRemote = BitVec.twoPow 32 30 := by decide
    simp only [remoteBits, if_true, h, BitVec.getLsbD_twoPow]
    by_cases hi : i = 30
    · simp [hi]
    · simp [hi, Ne.symm hi]

/-- The layout of a packed word, bit by bit (spec/30_encoding.md R60, R61). -/
theorem packWord_getLsbD (v : Nat) (e r : Bool) (i : Nat) :
    (packWord v e r).getLsbD i =
      ((decide (i < 29) && v.testBit i) || (decide (i = 29) && e) || (decide (i = 30) && r)) := by
  simp only [packWord, BitVec.getLsbD_or, BitVec.getLsbD_ofNat, Nat.testBit_and, canIdMask_testBit,
    extendedBits_getLsbD, remoteBits_getLsbD]
  by_cases h : i < 29
  · have h32 : i < 32 := by omega
    simp [h, h32]
  · simp [h]

theorem extendedOf_eq (w : Word) : extendedOf w = w.getLsbD 29 := by
  have h : Config.canIdExtended = BitVec.twoPow 32 29 := by decide
  rw [extendedOf, h, BitVec.and_twoPow]
  cases w.getLsbD 29 <;> decide

theorem remoteOf_eq (w : Word) : remoteOf w = w.getLsbD 30 := by
  have h : Config.canIdRemote = BitVec.twoPow 32 30 := by decide
  rw [remoteOf, h, BitVec.and_twoPow]
  cases w.getLsbD 30 <;> decide

/-- The fields of a word, bit by bit (spec/30_encoding.md R61). -/
theorem unpackWord_value_getLsbD (w : Word) (i : Nat) :
    (unpackWord w).value.getLsbD i = (decide (i < 29) && w.getLsbD i) := by
  simp only [unpackWord, BitVec.getLsbD_ofNat, Nat.testBit_and, canIdMask_testBit, BitVec.testBit_toNat]
  by_cases h : i < 29 <;> simp [h]

@[simp] theorem unpackWord_extended (w : Word) : (unpackWord w).extended = w.getLsbD 29 := extendedOf_eq w
@[simp] theorem unpackWord_remote (w : Word) : (unpackWord w).remote = w.getLsbD 30 := remoteOf_eq w

/-- Bit `i` of the word lies in byte `i / 8` (spec/00_scope.md R14; spec/20_memory.md R40). -/
theorem le32_getLsbD (b0 b1 b2 b3 : Byte) (i : Nat) :
    (le32 b0 b1 b2 b3).getLsbD i =
      if i < 8 then b0.getLsbD i else if i < 16 then b1.getLsbD (i - 8)
      else if i < 24 then b2.getLsbD (i - 16) else b3.getLsbD (i - 24) := by
  simp only [le32, BitVec.getLsbD_or, BitVec.getLsbD_shiftLeft, BitVec.getLsbD_setWidth]
  have big (b : Byte) (j : Nat) (h : 8 ≤ j) : b.getLsbD j = false := BitVec.getLsbD_of_ge b j h
  rcases Nat.lt_or_ge i 8 with h | h
  · simp [h, show i < 32 by omega, show i < 16 by omega, show i < 24 by omega]
  rcases Nat.lt_or_ge i 16 with h' | h'
  · simp [show ¬ i < 8 by omega, h', show i < 32 by omega, show i - 8 < 32 by omega, show i < 24 by omega, big b0 i h]
  rcases Nat.lt_or_ge i 24 with h'' | h''
  · simp [show ¬ i < 8 by omega, show ¬ i < 16 by omega, h'', show i < 32 by omega, show i - 8 < 32 by omega,
      show i - 16 < 32 by omega, big b0 i h, big b1 (i - 8) (by omega)]
  rcases Nat.lt_or_ge i 32 with h3 | h3
  · simp [show ¬ i < 8 by omega, show ¬ i < 16 by omega, show ¬ i < 24 by omega, h3, show i - 8 < 32 by omega,
      show i - 16 < 32 by omega, show i - 24 < 32 by omega, big b0 i h, big b1 (i - 8) (by omega),
      big b2 (i - 16) (by omega)]
  · simp [show ¬ i < 8 by omega, show ¬ i < 16 by omega, show ¬ i < 24 by omega, show ¬ i < 32 by omega,
      big b0 i h, big b3 (i - 24) (by omega)]

/-- `le32(bytes_le32(W)) = W` (spec/00_scope.md R14). -/
theorem wordOfBytes_bytesLe32 (w : Word) : wordOfBytes (bytesLe32 w) = some w := by
  refine congrArg some (BitVec.eq_of_getLsbD_eq fun i hi => ?_)
  rw [le32_getLsbD]
  simp only [BitVec.getLsbD_extractLsb']
  split
  · simp [*]
  split
  · simp [show i - 8 < 8 by omega, show 8 + (i - 8) = i by omega]
  split
  · simp [show i - 16 < 8 by omega, show 16 + (i - 16) = i by omega]
  · simp [show i - 24 < 8 by omega, show 24 + (i - 24) = i by omega]

/-- `bytes_le32(le32(b)) = b` (spec/00_scope.md R14). -/
theorem bytesLe32_le32 (b0 b1 b2 b3 : Byte) : bytesLe32 (le32 b0 b1 b2 b3) = [b0, b1, b2, b3] := by
  simp only [bytesLe32, List.cons.injEq, and_true]
  refine ⟨?_, ?_, ?_, ?_⟩ <;> refine BitVec.eq_of_getLsbD_eq fun i hi => ?_ <;>
    rw [BitVec.getLsbD_extractLsb', le32_getLsbD]
  · simp [hi]
  · simp [hi, show 8 + i < 16 by omega]
  · simp [hi, show ¬ 16 + i < 8 by omega, show 16 + i < 24 by omega]
  · simp [hi, show ¬ 24 + i < 8 by omega, show ¬ 24 + i < 16 by omega]

/-- Bit `j` of byte `k` is bit `8 k + j` of the word (spec/20_memory.md R40). -/
theorem bytesLe32_getLsbD (w : Word) (k j : Nat) (hk : k < 4) (hj : j < 8) :
    ((bytesLe32 w).getD k 0#8).getLsbD j = w.getLsbD (8 * k + j) := by
  match k, hk with
  | 0, _ => simp [bytesLe32, hj]
  | 1, _ => simp [bytesLe32, hj]
  | 2, _ => simp [bytesLe32, hj]
  | 3, _ => simp [bytesLe32, hj]

/-- The outcomes of `respondWith`: the result's fields, or one of the two error responses. -/
theorem respondWith_cases {α : Type} (define : α → Response → Response) (res : Result α) :
    (∃ a, res = .ok a ∧ respondWith define res = define a (Response.bare .ok)) ∨
    (res = .rangeError ∧ respondWith define res = Response.bare .range) ∨
    (res = .lengthError ∧ respondWith define res = Response.bare .length) := by
  cases res with
  | ok a => exact .inl ⟨a, rfl, rfl⟩
  | rangeError => exact .inr (.inl ⟨rfl, rfl⟩)
  | lengthError => exact .inr (.inr ⟨rfl, rfl⟩)

/-- A buffer operand that the port carries whole is its bytes; a longer one is LengthError for every operation. -/
theorem onBuffer_eq {α : Type} (b : InBuf) (op : List Byte → Result α) (h : b.wellFormed = true) :
    onBuffer b op = if b.inlen.toNat ≤ 12 then op b.bytes else .lengthError := by
  have hl : b.bytes.length = min b.inlen.toNat 12 := by
    simpa [InBuf.wellFormed, Config.inbufCap] using h
  unfold onBuffer bufferOperand
  by_cases hle : b.inlen.toNat ≤ 12
  · have : b.bytes.take b.inlen.toNat = b.bytes := List.take_of_length_le (by omega)
    simp [hle, Config.inbufCap, this]
  · simp [hle, Config.inbufCap]

/-- The range check as inequalities (spec/10_state.md R28). -/
theorem legalValue_iff (v : Nat) (e : Bool) :
    legalValue v e = true ↔ (e = false ∧ v ≤ 0x7FF) ∨ (e = true ∧ v ≤ 0x1FFFFFFF) := by
  have std : legalValue v false = decide (v ≤ 0x7FF) := rfl
  have ext : legalValue v true = decide (v ≤ 0x1FFFFFFF) := rfl
  cases e
  · rw [std, decide_eq_true_iff]; simp
  · rw [ext, decide_eq_true_iff]; simp

/-- Masking a value to 29 bits is taking it modulo 2^29. -/
theorem and_canIdMask (v : Nat) : v &&& Config.canIdMask = v % 2 ^ 29 := Nat.and_two_pow_sub_one_eq_mod v 29

/-- The value of an identifier operand (spec/30_encoding.md R70). -/
theorem identifierOperand_value (val : BitVec 32) (ext rtr : Bool) :
    (identifierOperand val ext rtr).value.toNat = val.toNat % 2 ^ 29 := by
  rw [identifierOperand, and_canIdMask, BitVec.toNat_ofNat, Nat.mod_mod]

/-- The value field of a word (spec/30_encoding.md R61). -/
theorem unpackWord_value_toNat (w : Word) : (unpackWord w).value.toNat = w.toNat % 2 ^ 29 := by
  rw [unpackWord, and_canIdMask, BitVec.toNat_ofNat, Nat.mod_mod]

/-- Packing looks at a value's low 29 bits only. -/
theorem packWord_mod (v : Nat) (e r : Bool) : packWord (v % 2 ^ 29) e r = packWord v e r := by
  rw [packWord, packWord, and_canIdMask, and_canIdMask, Nat.mod_mod]

/-- The fields IDENC defines for a word's own bytes (spec/30_encoding.md R69). -/
theorem defineIdBytes_bytesLe32 (w : Word) (r : Response) :
    defineIdBytes (bytesLe32 w) r = (r.withBuffer (bytesLe32 w)).withWord w := by
  rw [defineIdBytes, wordOfBytes_bytesLe32]

/-- IDDEC of a buffer of another length is LengthError (spec/40_identifier.md R86). -/
theorem iddec_of_length_ne (b : List Byte) (h : b.length ≠ 4) : iddec b = .lengthError := by
  match b, h with
  | [], _ => rfl
  | [_], _ => rfl
  | [_, _], _ => rfl
  | [_, _, _], _ => rfl
  | [_, _, _, _], h => exact absurd rfl h
  | _ :: _ :: _ :: _ :: _ :: _, _ => rfl

end Sys2Proof.Machine
end

