-- ==== Sys2Proof/Laws/Decode.lean ====
section
/-! SUPPORT. Bit lemmas of the encoder's packing and of the decoder's fields. -/

namespace Sys2Proof

/-- A placed field's bits stand from `lo` up, and no other bit is set. -/
theorem place_getLsbD {w : Nat} (f : BitVec w) (lo i : Nat) :
    (place f lo).getLsbD i = (decide (i < 141) && decide (lo ≤ i) && f.getLsbD (i - lo)) := by
  simp only [place, BitVec.getLsbD_shiftLeft, BitVec.getLsbD_setWidth]
  by_cases h : i < 141
  · by_cases h' : i < lo
    · simp [h, h', show ¬ lo ≤ i by omega]
    · simp [h, h', show lo ≤ i by omega, show i - lo < 141 by omega]
  · simp [h]

/-- Bytes placed from `lo` set no bit below `lo`. -/
theorem placeBytes_getLsbD_below (bs : List Byte) (lo i : Nat) (h : i < lo) :
    (placeBytes bs lo).getLsbD i = false := by
  induction bs generalizing lo with
  | nil => simp [placeBytes]
  | cons b bs ih =>
    simp [placeBytes, place_getLsbD, ih (lo + 8) (by omega), show ¬ lo ≤ i by omega]

/-- Bit `j` of byte `k` stands at `lo + 8 k + j`. -/
theorem placeBytes_getLsbD (bs : List Byte) (lo k j : Nat) (hj : j < 8) (h : lo + 8 * k + j < 141) :
    (placeBytes bs lo).getLsbD (lo + 8 * k + j) = (bs.getD k 0#8).getLsbD j := by
  induction bs generalizing lo k with
  | nil => simp [placeBytes]
  | cons b bs ih =>
    cases k with
    | zero =>
      have below : (placeBytes bs (lo + 8)).getLsbD (lo + j) = false :=
        placeBytes_getLsbD_below _ _ _ (by omega)
      rw [Nat.mul_zero, Nat.add_zero, placeBytes, BitVec.getLsbD_or, place_getLsbD, below]
      simp [show lo + j < 141 by omega]
    | succ k =>
      have e : lo + 8 * (k + 1) + j = lo + 8 + 8 * k + j := by omega
      have big : b.getLsbD (lo + 8 * (k + 1) + j - lo) = false := BitVec.getLsbD_of_ge _ _ (by omega)
      rw [placeBytes, BitVec.getLsbD_or, place_getLsbD, big, Bool.and_false, Bool.false_or, e, ih (lo + 8) k (by omega)]
      simp

/-- A packed request's bits, field by field. -/
theorem packRequest_getLsbD (op : BitVec 3) (val : BitVec 32) (ext rtr : Bool) (buf : InBuf) (i : Nat) :
    (packRequest op val ext rtr buf).getLsbD i =
      ((place op 0).getLsbD i || (place val 3).getLsbD i || (place (BitVec.ofBool ext) 35).getLsbD i ||
        (place (BitVec.ofBool rtr) 36).getLsbD i || (place buf.inlen 37).getLsbD i ||
        (placeBytes buf.bytes 45).getLsbD i) := by
  simp only [packRequest, BitVec.getLsbD_or]

end Sys2Proof
end

