-- ==== Sys2Proof/Laws/PerInstr.lean ====
section
/-! SUPPORT. Statements about every instruction as syntax, one lemma per constructor. The family EncodeOpcode: the
encoder writes the operation's own code in OP (spec/30_encoding.md R66), and that code is not the reserved one (R71). -/

namespace Sys2Proof.Laws.EncodeOpcode

/-- The code of R66's table. -/
def code : Instr → BitVec 3
  | .idnew _ _ _ => 0b000#3
  | .idenc _ _ _ => 0b001#3
  | .iddec _ => 0b010#3
  | .mask _ _ _ => 0b011#3
  | .frnew _ _ _ _ => 0b100#3
  | .frenc _ _ _ _ => 0b101#3
  | .frdec _ => 0b110#3

def Statement (i : Instr) : Prop := opField (encode i) = code i ∧ code i ≠ 0b111#3

/-- OP is the lowest field of a packed request. -/
theorem opField_packRequest (op : BitVec 3) (val : BitVec 32) (ext rtr : Bool) (buf : InBuf) :
    opField (packRequest op val ext rtr buf) = op := by
  refine BitVec.eq_of_getLsbD_eq fun i hi => ?_
  have h45 : (placeBytes buf.bytes 45).getLsbD i = false := placeBytes_getLsbD_below _ _ _ (by omega)
  simp only [opField, BitVec.getLsbD_extractLsb', packRequest_getLsbD, place_getLsbD, h45, Nat.zero_add, hi]
  simp [show ¬ 3 ≤ i by omega, show ¬ 35 ≤ i by omega, show ¬ 36 ≤ i by omega, show ¬ 37 ≤ i by omega,
    show i < 141 by omega]

theorem idnew (val : BitVec 32) (ext rtr : Bool) : Statement (.idnew val ext rtr) :=
  ⟨opField_packRequest _ _ _ _ _, by simp only [code]; decide⟩
theorem idenc (val : BitVec 32) (ext rtr : Bool) : Statement (.idenc val ext rtr) :=
  ⟨opField_packRequest _ _ _ _ _, by simp only [code]; decide⟩
theorem iddec (buf : InBuf) : Statement (.iddec buf) :=
  ⟨opField_packRequest _ _ _ _ _, by simp only [code]; decide⟩
theorem mask (val : BitVec 32) (ext rtr : Bool) : Statement (.mask val ext rtr) :=
  ⟨opField_packRequest _ _ _ _ _, by simp only [code]; decide⟩
theorem frnew (val : BitVec 32) (ext rtr : Bool) (buf : InBuf) : Statement (.frnew val ext rtr buf) :=
  ⟨opField_packRequest _ _ _ _ _, by simp only [code]; decide⟩
theorem frenc (val : BitVec 32) (ext rtr : Bool) (buf : InBuf) : Statement (.frenc val ext rtr buf) :=
  ⟨opField_packRequest _ _ _ _ _, by simp only [code]; decide⟩
theorem frdec (buf : InBuf) : Statement (.frdec buf) :=
  ⟨opField_packRequest _ _ _ _ _, by simp only [code]; decide⟩

end Sys2Proof.Laws.EncodeOpcode
end

