-- ==== Sys2Proof/Laws/Step.lean ====
section
/-! SUPPORT. What a step can do, said once: nothing is in progress, the request's operation runs, or it is refused. -/

namespace Sys2Proof.Machine

theorem step_idle {s : State} (h : s.requests = []) : step s = .next s := by
  simp [step, h]

theorem step_request {s : State} {q : Request} {rest : List Request} (h : s.requests = q :: rest) :
    step s = match decode q.bundle with
      | .ok i => exec i s
      | .error .reservedOperation => .refused .reservedOperation := by
  cases hd : decode q.bundle with
  | ok i => simp [step, h, hd]
  | error e => cases e; simp [step, h, hd]

/-- Everything behind a step that answers a next state: nothing was in progress, or the operation of the request served
next ran. -/
theorem step_next {s t : State} (h : step s = .next t) :
    (s.requests = [] ∧ t = s) ∨
    ∃ q rest i, s.requests = q :: rest ∧ decode q.bundle = .ok i ∧ exec i s = .next t := by
  cases hq : s.requests with
  | nil =>
    rw [step_idle hq] at h
    exact .inl ⟨rfl, (Host.Outcome.next.inj h).symm⟩
  | cons q rest =>
    cases hd : decode q.bundle with
    | ok i => exact .inr ⟨q, rest, i, rfl, hd, by simpa [step, hq, hd] using h⟩
    | error e => cases e; simp [step, hq, hd] at h

/-- The model's own run is the host's. -/
theorem runSteps_eq_core_run (k : Nat) (s : State) : runSteps k s = Host.Core.run Sys2Proof.core k s := by
  induction k generalizing s with
  | zero => rfl
  | succ k ih =>
    refine Eq.trans ?_ (Host.Core.run.eq_2 Sys2Proof.core s k).symm
    have same : Sys2Proof.core.step s = step s := rfl
    cases h : step s with
    | next t => simpa [runSteps, same, h] using ih t
    | fault e => simp only [runSteps, same, h]; rfl
    | refused e => simp only [runSteps, same, h]; rfl

end Sys2Proof.Machine
end

