-- ==== Sys2Proof/Tests/Slice0.lean ====
section
/-! SUPPORT. Tests. Expected results are those of spec/95_test_vectors.md (the section is named at each), worked out
there or written out by hand from spec/30_encoding.md; none is the model's own answer. The last part shows, for every
statement with hypotheses, concrete values that meet them. -/

namespace Sys2Proof.Tests

open Sys2Proof.Machine

/-! ## Well-formedness: an ill-formed term for each way the check can refuse -/

theorem test_wf_refuses_too_few_bytes : Instr.wellFormed (.iddec { inlen := 4#8, bytes := [1#8, 2#8] }) = false := by decide
theorem test_wf_refuses_too_many_bytes : Instr.wellFormed (.frnew 0#32 false false { inlen := 1#8, bytes := [1#8, 2#8] }) = false := by decide
theorem test_wf_refuses_thirteen_bytes : Instr.wellFormed (.frdec { inlen := 13#8, bytes := List.replicate 13 1#8 }) = false := by decide
theorem test_wf_refuses_frenc_bytes : Instr.wellFormed (.frenc 0#32 false false { inlen := 0#8, bytes := [1#8] }) = false := by decide
theorem test_wf_accepts_a_long_buffer : Instr.wellFormed (.frdec { inlen := 255#8, bytes := List.replicate 12 1#8 }) = true := by decide

/-! ## Decoding: one word per operation (sections 3 and 4; spec/30_encoding.md R65) -/

/-- Section 3. -/
theorem test_decode_idnew : decodeTableWord 144 0x000000000000000000000000000000003FF8 = some (.idnew 0x7FF#32 false false) := by decide
/-- P2, request 6: RTR and EXT set. -/
theorem test_decode_idenc : decodeTableWord 144 0x000000000000000000000000001891A2B559 = some (.idenc 0x123456AB#32 true true) := by decide
/-- P4, request 8. -/
theorem test_decode_iddec : decodeTableWord 144 0x000000000000000000155555406000000002 = some (.iddec { inlen := 3#8, bytes := [0xAA#8, 0xAA#8, 0xAA#8] }) := by decide
/-- Section 3. -/
theorem test_decode_mask : decodeTableWord 144 0x000000000000000000000000000891A2B003 = some (.mask 0x12345600#32 true false) := by decide
/-- P4, request 5. -/
theorem test_decode_frnew : decodeTableWord 144 0x000000000000000000006040207000000154 = some (.frnew 0x2A#32 false true { inlen := 3#8, bytes := [1#8, 2#8, 3#8] }) := by decide
/-- P1, request 3. -/
theorem test_decode_frenc : decodeTableWord 144 0x0000000000000000000015BBC0400000091D = some (.frenc 0x123#32 false false { inlen := 2#8, bytes := [0xDE#8, 0xAD#8] }) := by decide
/-- P4, request 1: 13 bytes, of which 12 are carried. -/
theorem test_decode_frdec : decodeTableWord 144 0x0161412100E0C0A08060402001A000000006 = some (.frdec { inlen := 13#8, bytes := [0#8, 1#8, 2#8, 3#8, 4#8, 5#8, 6#8, 7#8, 8#8, 9#8, 10#8, 11#8] }) := by decide
/-- Section 3. -/
theorem test_decode_reserved : decodeTableWord 144 7 = none := by decide
/-- The encoder gives the packed request of P1, request 4. -/
theorem test_encode_frdec : encode (.frdec { inlen := 6#8, bytes := [0x23#8, 1#8, 0#8, 0#8, 0xDE#8, 0xAD#8] }) = 0x00000000000015BBC000002460C000000006#141 := by decide

/-! ## One step of each operation -/

/-- The responses a step leaves on the reset state. -/
def answers (i : Instr) : Option (List Response) :=
  match exec i State.reset with
  | .next t => some (t.responses.map Delivery.response)
  | _ => none

/-- A response with an identifier. -/
def idResponse (v : Nat) (e r : Bool) : Response :=
  { err := .ok, oval := some (BitVec.ofNat 29 v), oext := some e, ortr := some r, oword := none, olen := none, obuf := [] }

/-- A response with an error. -/
def errResponse (e : ErrStatus) : Response :=
  { err := e, oval := none, oext := none, ortr := none, oword := none, olen := none, obuf := [] }

/-- An input buffer of at most 12 bytes. -/
def buffer (b : List Byte) : InBuf := { inlen := BitVec.ofNat 8 b.length, bytes := b }

/-- Section 2.1: 0x7FF is the last legal standard value, 0x800 the first illegal one. -/
theorem test_idnew_standard_limit :
    answers (.idnew 0x7FF#32 false true) = some [idResponse 0x7FF false true] ∧
    answers (.idnew 0x800#32 false true) = some [errResponse .range] := by decide
/-- Section 2.1. -/
theorem test_idnew_extended_limit :
    answers (.idnew 0x1FFFFFFF#32 true false) = some [idResponse 0x1FFFFFFF true false] ∧
    answers (.idnew 0x20000000#32 true false) = some [errResponse .range] := by decide
/-- Section 1, S7. -/
theorem test_idenc_s7 : answers (.idenc 0x1AAAAAAA#32 true true) = some
    [{ errResponse .ok with oword := some 0x7AAAAAAA#32, olen := some 4#4, obuf := [0xAA#8, 0xAA#8, 0xAA#8, 0x7A#8] }] := by decide
/-- Section 2.2, last row: VAL bits 31..29 are discarded. -/
theorem test_idenc_high_bits : answers (.idenc 0xFFFFFFFF#32 false false) = some
    [{ errResponse .ok with oword := some 0x1FFFFFFF#32, olen := some 4#4, obuf := [0xFF#8, 0xFF#8, 0xFF#8, 0x1F#8] }] := by decide
/-- Section 2.3: each byte has its own place; bit 29 is the extended flag. -/
theorem test_iddec_bytes : answers (.iddec (buffer [0x78#8, 0x56#8, 0x34#8, 0x32#8])) = some [idResponse 0x12345678 true false] := by decide
/-- Section 2.3: no range check, bit 31 ignored; a buffer of 5 bytes is an error. -/
theorem test_iddec_wire_and_length :
    answers (.iddec (buffer [0x00#8, 0x08#8, 0x00#8, 0x80#8])) = some [idResponse 0x800 false false] ∧
    answers (.iddec (buffer [1#8, 2#8, 3#8, 4#8, 5#8])) = some [errResponse .length] := by decide
/-- Section 2.4: bit 29 of the value does not set EXT. -/
theorem test_mask_high_value : answers (.mask 0x3FFFFFFF#32 false false) = some [{ errResponse .ok with oword := some 0x1FFFFFFF#32 }] := by decide
/-- Section 2.4. -/
theorem test_mask_flags : answers (.mask 0x123#32 true true) = some [{ errResponse .ok with oword := some 0x60000123#32 }] := by decide
/-- Section 2.6: a remote frame keeps its payload. -/
theorem test_frnew_remote : answers (.frnew 0x2A#32 false true (buffer [1#8, 2#8, 3#8])) = some
    [{ idResponse 0x2A false true with olen := some 3#4, obuf := [1#8, 2#8, 3#8] }] := by decide
/-- Section 2.6. -/
theorem test_frnew_nine_bytes : answers (.frnew 0x2A#32 false false (buffer (List.replicate 9 0x11#8))) = some [errResponse .length] := by decide
/-- Section 2.7. -/
theorem test_frenc_twelve_bytes :
    answers (.frenc 0x1FFFFFFF#32 true true (buffer [0#8, 1#8, 2#8, 3#8, 4#8, 5#8, 6#8, 7#8])) = some
      [{ errResponse .ok with
          olen := some 12#4
          obuf := [0xFF#8, 0xFF#8, 0xFF#8, 0x7F#8, 0#8, 1#8, 2#8, 3#8, 4#8, 5#8, 6#8, 7#8] }] := by decide
/-- Section 2.7, port level. -/
theorem test_frenc_nine_bytes : answers (.frenc 0#32 false false (buffer (List.replicate 9 0#8))) = some [errResponse .length] := by decide
/-- Section 2.8. -/
theorem test_frdec_twelve_bytes :
    answers (.frdec (buffer [0#8, 1#8, 2#8, 3#8, 4#8, 5#8, 6#8, 7#8, 8#8, 9#8, 10#8, 11#8])) = some
      [{ idResponse 0x03020100 false false with
          olen := some 8#4
          obuf := [4#8, 5#8, 6#8, 7#8, 8#8, 9#8, 10#8, 11#8] }] := by decide
/-- Section 2.8: 3 bytes and 13 bytes. -/
theorem test_frdec_lengths :
    answers (.frdec (buffer [0x2A#8, 0#8, 0#8])) = some [errResponse .length] ∧
    answers (.frdec { inlen := 13#8, bytes := List.replicate 12 0#8 }) = some [errResponse .length] := by decide

/-- The responses after a step. -/
def afterStep (s : State) : Option (List Delivery) :=
  match step s with
  | .next t => some t.responses
  | _ => none

/-- The first step after reset answers the request issued (P3, request 1). -/
theorem test_step_runs_first_request :
    afterStep (State.reset.withFetchWord 144 0x4000) = some [{ request := some ⟨0, 0x4000#141⟩, response := errResponse .range }] := by decide
/-- P5. -/
theorem test_step_refuses_reserved : (match step (State.reset.withFetchWord 144 7) with
    | .refused .reservedOperation => true
    | _ => false) = true := by decide

/-! ## Response bits and reads (spec/30_encoding.md R67, R68) -/

/-- Section 3: IDNEW 0x7FF, 0, 0 gives ERR = 00 and OVAL = 0x7FF; OWORD (bit 33) holds no value. -/
theorem test_response_bits :
    ([0, 1, 2, 12, 13, 31, 32, 33, 164, 165].map (idResponse 0x7FF false false).bit) =
      [some false, some false, some true, some true, some false, some false, some false, none, none, none] := by decide

/-! ## Order of service (spec/10_state.md R37, R39) -/

/-- A request of requester 1 overtakes none of its own, wherever the arbitration puts it; requester 3's may come first. -/
theorem test_issue_keeps_own_order :
    let s : State := { requests := [⟨1, 0#141⟩, ⟨2, 0#141⟩, ⟨1, 1#141⟩, ⟨2, 1#141⟩], responses := [] }
    (issue 0 ⟨1, 2#141⟩ s).requests = [⟨1, 0#141⟩, ⟨2, 0#141⟩, ⟨1, 1#141⟩, ⟨1, 2#141⟩, ⟨2, 1#141⟩] ∧
    (issue 0 ⟨3, 2#141⟩ s).requests = ⟨3, 2#141⟩ :: s.requests ∧
    (issue 9 ⟨3, 2#141⟩ s).requests = s.requests ++ [⟨3, 2#141⟩] := by decide

/-! ## Text (spec/30_encoding.md R75; section 4) -/

/-- P1, request 2. -/
theorem test_parse_frnew : parseLine ("FRNEW id1, [DE AD] -> f1".toList) =
    some { call := .frnew (.parts (.name "id1") (.bytes [0xDE#8, 0xAD#8])), result := some "f1" } := by decide
/-- P2, request 1, with a comment. -/
theorem test_parse_mask : parseLine ("MASK 0x12345600, 1, 0 -> fid ; id word".toList) =
    some { call := .mask (.parts 0x12345600 true false), result := some "fid" } := by decide
/-- A flag is 0 or 1. -/
theorem test_parse_rejects_flag : parseLine ("IDNEW 5, 2, 0".toList) = none := by decide

/-- The name a line gives. -/
def namedAfter (l : Line) (env : Env) (n : String) : Option Named :=
  match runLine 0 0 l env State.reset with
  | .next (env', _) => env'.lookup? n
  | _ => none

/-- P1, request 3: a named frame stands for its operands. -/
theorem test_line_frenc : namedAfter { call := .frenc (.name "f1"), result := some "buf1" }
    [("f1", some (.frame { value := 0x123#29, extended := false, remote := false } [0xDE#8, 0xAD#8]))] "buf1" =
    some (.bytes [0x23#8, 0x01#8, 0x00#8, 0x00#8, 0xDE#8, 0xAD#8]) := by decide

/-! ## Filter entries (section 2.5) -/

theorem test_intended_accepts :
    FilterEntry.intendedAccepts { identifierWord := 0x32345600#32, maskWord := 0x7FFFFF00#32 } 0x323456AB#32 = true ∧
    FilterEntry.intendedAccepts { identifierWord := 0x32345600#32, maskWord := 0x7FFFFF00#32 } 0x723456AB#32 = false ∧
    FilterEntry.intendedAccepts { identifierWord := 0x32345600#32, maskWord := 0x7FFFFF00#32 } 0x000006AB#32 = false := by decide

/-! ## Witnesses: concrete values that meet the hypotheses of the statements, clause by clause -/

/-- An IDNEW request (section 3) with unread INBUF bits set. -/
def idnewBundle : ReqBundle := 0x3FF8#141
/-- A FRDEC request (P4, request 3). -/
def frdecBundle : ReqBundle := 0x00000000000000001FFFFFFFE0A000000006#141
/-- Two requests of two requesters in progress. -/
def busy : State := { requests := [⟨1, idnewBundle⟩, ⟨2, frdecBundle⟩], responses := [] }
/-- A state in which requester 1 has a response. -/
def answered : State := { requests := [], responses := [⟨some ⟨1, idnewBundle⟩, idResponse 0x7FF false false⟩] }

theorem witness_StepRunsTheDecodedRequest :
    busy.requests = ⟨1, idnewBundle⟩ :: [⟨2, frdecBundle⟩] ∧ decode idnewBundle = .ok (.idnew 0x7FF#32 false false) ∧
    decodeTableWord 144 0x3FF8 = some (.idnew 0x7FF#32 false false) := ⟨rfl, rfl, rfl⟩
theorem witness_IdleBlockChangesNothing : answered.requests = [] := rfl
theorem witness_ReservedOperationIsRefused :
    ({ requests := [⟨1, 7#141⟩], responses := [] } : State).requests = ⟨1, 7#141⟩ :: [] ∧ (7#141).extractLsb' 0 3 = 0b111#3 := by decide
theorem witness_OnlyTheReservedCodeIsRejected :
    frdecBundle.extractLsb' 0 3 ≠ 0b111#3 ∧ (7#141 : ReqBundle).extractLsb' 0 3 = 0b111#3 := by decide
/-- Two IDDEC requests that differ in VAL, EXT, RTR and in an INBUF byte INLEN does not cover. -/
theorem witness_UnreadFieldsAreIgnored :
    let b : ReqBundle := 0x000000000000000000000100008000000002#141
    let b' : ReqBundle := 0x000000FF0000000000000100009FFFFFFFFA#141
    b ≠ b' ∧ b.extractLsb' 0 3 = b'.extractLsb' 0 3 ∧
    (b.extractLsb' 0 3 ≠ 0b010#3 → b.extractLsb' 0 3 ≠ 0b110#3 → b.extractLsb' 3 34 = b'.extractLsb' 3 34) ∧
    (b.extractLsb' 0 3 ≠ 0b000#3 → b.extractLsb' 0 3 ≠ 0b001#3 → b.extractLsb' 0 3 ≠ 0b011#3 →
      b.extractLsb' 37 8 = b'.extractLsb' 37 8 ∧
      ∀ k, k < (b.extractLsb' 37 8).toNat → k < 12 → b.extractLsb' (45 + 8 * k) 8 = b'.extractLsb' (45 + 8 * k) 8) := by decide
/-- Clause by clause for two requests that read VAL. -/
theorem witness_UnreadFieldsAreIgnored_val :
    let b : ReqBundle := idnewBundle
    let b' : ReqBundle := 0x000000000000000000000000002000003FF8#141
    b ≠ b' ∧ b.extractLsb' 0 3 = b'.extractLsb' 0 3 ∧ b.extractLsb' 3 34 = b'.extractLsb' 3 34 ∧
    b.extractLsb' 0 3 = 0b000#3 := by decide
theorem witness_DecodeOfEncodeIsTheInstruction :
    Instr.wellFormed (.frnew 0xFFFFFFFF#32 true true { inlen := 255#8, bytes := List.replicate 12 0xFF#8 }) = true ∧
    Instr.wellFormed (.iddec { inlen := 0#8, bytes := [] }) = true := by decide
theorem witness_IdnewChecksTheRangeAndKeepsTheValue :
    Formula.outOfRange 0x800 false ∧ Formula.outOfRange 0x20000000 true ∧ Formula.outOfRange (0xFFFFFFFF#32).toNat true ∧
    ¬ Formula.outOfRange 0x7FF false ∧ ¬ Formula.outOfRange 0x1FFFFFFF true ∧ ¬ Formula.outOfRange (0#32).toNat false ∧
    idnewBundle.extractLsb' 0 3 = 0b000#3 := by unfold Formula.outOfRange; decide
theorem witness_IdnewReturnsOnlyValidIdentifiers : ∃ x, idnew 0x1FFFFFFF true true = .ok x := ⟨_, rfl⟩
theorem witness_IdencPacksTheWordLittleEndian : (0x3559#141 : ReqBundle).extractLsb' 0 3 = 0b001#3 := by decide
theorem witness_IddecUnpacksExactlyFourBytes :
    ([1#8, 2#8, 3#8] : List Byte).length ≠ 4 ∧ (List.replicate 5 1#8 : List Byte).length ≠ 4 ∧
    InBuf.wellFormed { inlen := 3#8, bytes := [1#8, 2#8, 3#8] } = true ∧ (3#8 ≠ 4#8) ∧
    InBuf.wellFormed { inlen := 13#8, bytes := List.replicate 12 0#8 } = true ∧ (13#8 ≠ 4#8) ∧
    (2#141 : ReqBundle).extractLsb' 0 3 = 0b010#3 := by decide
theorem witness_BitThirtyOneIsNeverProducedAndIsIgnored :
    ([] : List Byte).length ≤ 8 ∧ (List.replicate 8 1#8 : List Byte).length ≤ 8 := by decide
theorem witness_IdentifiersAreEqualIffTheirBytesAre :
    wordOfBytes (idenc { value := 0x2A#29, extended := false, remote := false }) = some 0x2A#32 ∧
    wordOfBytes (idenc { value := 0x2A#29, extended := true, remote := false }) = some 0x2000002A#32 := by decide
theorem witness_MaskPacksAnyValueWithoutCheck : (3#141 : ReqBundle).extractLsb' 0 3 = 0b011#3 := by decide
theorem witness_MaskAgreesWithIdencOnIdentifiers : ∃ x, idnew 0x7FF false true = .ok x := ⟨_, rfl⟩
theorem witness_IdentifiersAreTheWordsWithBitThirtyOneClear : (0x3FFFFFFF#32).getLsbD 31 = false := by decide
theorem witness_FullAcceptanceMaskKeepsEveryEncodedWord :
    (0x7FFFFFFF#32).getLsbD 31 = false ∧ (0x80000000#32).getLsbD 31 = true ∧
    wordOfBytes (idenc { value := 0xAB#29, extended := false, remote := false }) = some 0xAB#32 := by decide
/-- Payload lengths at the limit, for FRNEW and FRENC. -/
theorem witness_FrnewChecksThePayloadLength :
    (List.replicate 9 1#8 : List Byte).length > 8 ∧ (List.replicate 8 1#8 : List Byte).length ≤ 8 ∧
    InBuf.wellFormed { inlen := 9#8, bytes := List.replicate 9 1#8 } = true ∧ (9#8).toNat > 8 ∧
    InBuf.wellFormed { inlen := 255#8, bytes := List.replicate 12 1#8 } = true ∧ (255#8).toNat > 8 ∧
    InBuf.wellFormed { inlen := 8#8, bytes := List.replicate 8 1#8 } = true ∧ (8#8).toNat ≤ 8 ∧
    (4#141 : ReqBundle).extractLsb' 0 3 = 0b100#3 := by decide
theorem witness_FrencPutsThePayloadAfterTheWord :
    InBuf.wellFormed { inlen := 9#8, bytes := List.replicate 9 1#8 } = true ∧ (9#8).toNat > 8 ∧
    InBuf.wellFormed { inlen := 0#8, bytes := [] } = true ∧ (0#8).toNat ≤ 8 ∧
    (5#141 : ReqBundle).extractLsb' 0 3 = 0b101#3 := by decide
theorem witness_FrdecSplitsWordAndPayload :
    ((List.replicate 3 1#8 : List Byte).length < 4) ∧ ((List.replicate 13 1#8 : List Byte).length > 12) ∧
    (List.replicate 8 1#8 : List Byte).length ≤ 8 ∧ (12#8).toNat = 4 + (List.replicate 8 1#8 : List Byte).length ∧
    (4#8).toNat = 4 + ([] : List Byte).length ∧
    InBuf.wellFormed { inlen := 3#8, bytes := List.replicate 3 1#8 } = true ∧ (3#8).toNat < 4 ∧
    InBuf.wellFormed { inlen := 13#8, bytes := List.replicate 12 1#8 } = true ∧ (13#8).toNat > 12 ∧
    (6#141 : ReqBundle).extractLsb' 0 3 = 0b110#3 := by decide
theorem witness_FrameBuffersAreFourToTwelveBytes :
    (∃ f, frdec [0x2A#8, 0#8, 0#8, 0#8] = .ok f) ∧ (∃ f, frdec (List.replicate 12 1#8) = .ok f) := ⟨⟨_, rfl⟩, ⟨_, rfl⟩⟩
theorem witness_PayloadBytesAreCarriedVerbatim :
    (∃ f, frdec [0x2A#8, 0#8, 0#8, 0x40#8, 1#8] = .ok f) ∧ ([1#8, 2#8, 3#8] : List Byte).length ≤ 8 := ⟨⟨_, rfl⟩, by decide⟩
theorem witness_FrencOfFrdecClearsOnlyBitThirtyOne : (List.replicate 8 0xFF#8 : List Byte).length ≤ 8 := by decide
theorem witness_HighValueBitsAreDiscardedExceptByIdnew : 0x20000000#32 &&& 0x1FFFFFFF#32 ≠ 0x20000000#32 := by decide
/-- For the three statements about all well-formed operations, one per operation with a buffer. -/
theorem witness_wellFormed_operations :
    Instr.wellFormed (.iddec (buffer [1#8, 2#8, 3#8, 4#8])) = true ∧ Instr.wellFormed (.frnew 0#32 false false (buffer [])) = true ∧
    Instr.wellFormed (.frenc 0#32 false false (buffer (List.replicate 8 1#8))) = true ∧
    Instr.wellFormed (.frdec (buffer (List.replicate 12 1#8))) = true ∧ Instr.wellFormed (.mask 0#32 false false) = true := by decide
/-- ErrorGivesNoPartialResult and DefinedFieldsAreThoseOfTheTable: both an error and an OK occur. -/
theorem witness_errors_and_results :
    (answers (.idnew 0x800#32 false false)).map (fun rs => rs.map Response.err) = some [.range] ∧
    (answers (.frdec (buffer (List.replicate 12 1#8)))).map (fun rs => rs.map Response.err) = some [.ok] := by decide
theorem witness_PseudoOperationsExpand :
    Formula.outOfRange 0x800 false ∧ ¬ Formula.outOfRange 0x7FF false ∧
    (List.replicate 9 1#8 : List Byte).length > 8 ∧ (List.replicate 8 1#8 : List Byte).length ≤ 8 ∧
    State.reset.requests = [] := by unfold Formula.outOfRange; decide
/-- Each of the three outcomes of the pseudo-operations occurs. -/
theorem witness_PseudoOperationLinesRunAsTheyExpand :
    (∀ q, q ∈ busy.requests → q.bundle.extractLsb' 0 3 ≠ 0b111#3) ∧
    idword 0x2A false false = .ok [0x2A#8, 0#8, 0#8, 0#8] ∧ (∀ b, idword 0x800 false false ≠ .ok b) ∧
    frameBytes 0x2A false true [1#8] = .ok [0x2A#8, 0#8, 0#8, 0x40#8, 1#8] ∧
    frameBytes 0x2A false false (List.replicate 9 1#8) = .lengthError ∧ frameBytes 0x800 false false [] = .rangeError :=
  ⟨by decide, by decide, (fun b h => by
      have e : idword 0x800 false false = .rangeError := by decide
      rw [e] at h; cases h), by decide, by decide, by decide⟩
theorem witness_NoRequestIsStuck :
    busy.requests = ⟨1, idnewBundle⟩ :: [⟨2, frdecBundle⟩] ∧ idnewBundle.extractLsb' 0 3 ≠ 0b111#3 := by decide
theorem witness_AnyRequesterGetsTheSameResponse : frdecBundle.extractLsb' 0 3 ≠ 0b111#3 := by decide
theorem witness_EveryInterleavingAnswersEachRequestAsAlone :
    ∀ q, q ∈ busy.requests → q.bundle.extractLsb' 0 3 ≠ 0b111#3 := by decide
/-- Requester 1 has the same request in both states; requester 2 asks something else, or nothing. -/
theorem witness_RequestersDoNotInterfere :
    (∀ q, q ∈ busy.requests → q.bundle.extractLsb' 0 3 ≠ 0b111#3) ∧
    (∀ q, q ∈ (State.withFetchWord { requests := [⟨1, idnewBundle⟩], responses := [] } 144 3).requests → q.bundle.extractLsb' 0 3 ≠ 0b111#3) ∧
    busy.requests.filter (fun q => q.requester == 1) =
      (State.withFetchWord { requests := [⟨1, idnewBundle⟩], responses := [] } 144 3).requests.filter (fun q => q.requester == 1) ∧
    busy.responsesTo 1 = (State.withFetchWord { requests := [⟨1, idnewBundle⟩], responses := [] } 144 3).responsesTo 1 := by decide
theorem witness_IssuingAddsOneRequestAndReadingChangesNothing :
    (Move.read 1 0 .oval).apply answered = .next answered ∧
    (∀ p, p ∈ [(⟨2, frdecBundle⟩ : Request)] → p.requester ≠ (⟨1, idnewBundle⟩ : Request).requester) := ⟨rfl, by decide⟩
/-- A field with a value, a field without one, and a response that does not exist. -/
theorem witness_ReadingAFieldWithoutAValueFaults :
    (answered.responsesTo 1)[0]? = some (idResponse 0x7FF false false) ∧ (idResponse 0x7FF false false).read .oval = some 0x7FF ∧
    (idResponse 0x7FF false false).read .oword = none ∧ (answered.responsesTo 1)[1]? = none ∧ (answered.responsesTo 2)[0]? = none := by decide
theorem witness_ResetForgetsEverything :
    Move.reset.apply busy = .next State.reset ∧ idnewBundle.extractLsb' 0 3 ≠ 0b111#3 := ⟨rfl, by decide⟩
theorem witness_EveryStepKeepsTheStateSafe :
    answered.safe = true ∧ step answered = .next answered ∧
    (State.withFetchWord answered 144 0x4000).safe = true ∧
    step (State.withFetchWord answered 144 0x4000) = .next
      { requests := [], responses := answered.responses ++ [{ request := some ⟨0, 0x4000#141⟩, response := errResponse .range }] } :=
  ⟨by decide, rfl, by decide, rfl⟩
/-- A safe state, and an action of each kind on it. -/
theorem witness_EveryActionKeepsTheStateSafe :
    answered.safe = true ∧ act none answered = .next answered ∧ act (some .reset) answered = .next State.reset ∧
    act (some (.read 1 0 .oval)) answered = .next answered ∧
    act (some (.issue 0 ⟨1, idnewBundle⟩)) answered =
      .next { requests := [⟨1, idnewBundle⟩], responses := answered.responses } :=
  ⟨by decide, rfl, rfl, rfl, rfl⟩
theorem witness_EveryActionKeepsResponsesFaithful : answered.faithful ∧ act none answered = .next answered :=
  ⟨fun d h => ⟨⟨1, idnewBundle⟩, by obtain rfl := List.mem_singleton.1 h; exact ⟨rfl, rfl⟩⟩, rfl⟩
/-- Issue a request, let the block answer it, read its value. -/
theorem witness_EveryIssuedRequestHasOneResponseOrIsInProgress :
    actAll [some (.issue 0 ⟨1, idnewBundle⟩), none, some (.read 1 0 .oval)] State.reset = .next answered ∧
    (∀ a, a ∈ [some (Move.issue 0 ⟨1, idnewBundle⟩), none, some (.read 1 0 .oval)] → a ≠ some .reset) := ⟨rfl, by decide⟩

end Sys2Proof.Tests
end

/-! # Proofs of the family 10_state.md

The layer first: what a request is answered, what a step and an action can do, what issuing does to the requests in
progress. Then the statements, each assembled from it. -/

namespace Sys2Proof.Machine

/-! ## The response of an operation, and the delivery of a request -/

/-- The response `exec` gives an operation's request (spec/30_encoding.md R69, R70); `exec_eq_respond` says that it does
so on every state. -/
def portResponse : Instr → Response
  | .idnew val ext rtr => respondWith (fun v r => r.withIdentifier v.id) (idnew (valueOperand val) ext rtr)
  | .idenc val ext rtr => respondWith defineIdBytes (.ok (idenc (identifierOperand val ext rtr)))
  | .iddec buf => respondWith Response.withIdentifier (onBuffer buf iddec)
  | .mask val ext rtr => respondWith Response.withWord (.ok (mask (valueOperand val) ext rtr))
  | .frnew val ext rtr buf => respondWith defineFrame (onBuffer buf (frnew (identifierOperand val ext rtr)))
  | .frenc val ext rtr buf =>
    respondWith Response.withBuffer ((onBuffer buf (frnew (identifierOperand val ext rtr))).map frenc)
  | .frdec buf => respondWith defineFrame (onBuffer buf frdec)

/-- Every operation answers on every state, and its response does not depend on the state (spec/20_memory.md R50). -/
theorem exec_eq_respond (i : Instr) (s : State) : exec i s = .next (respond (portResponse i) s) := by
  cases i <;> rfl

/-- The delivery of a request's response, beside the request. The reserved operation has no response (R71): what stands
for it here is never delivered. -/
def Request.delivery (q : Request) : Delivery :=
  { request := some q
    response :=
      match decode q.bundle with
      | .ok i => portResponse i
      | .error .reservedOperation => Response.bare .ok }

@[simp] theorem delivery_request (q : Request) : q.delivery.request = some q := rfl

theorem delivery_of_decode {q : Request} {i : Instr} (h : decode q.bundle = .ok i) :
    q.delivery = { request := some q, response := portResponse i } := by
  simp [Request.delivery, h]

/-! ## Decoding -/

/-- Every code of OP but 0b111 selects an operation (spec/30_encoding.md R66, R71). -/
theorem decode_ok_of_not_reserved {b : ReqBundle} (h : b.extractLsb' 0 3 ≠ 0b111#3) : ∃ i, decode b = .ok i := by
  have not_seven : (opField b).toNat ≠ 7 := fun h7 => h (BitVec.eq_of_toNat_eq h7)
  have lt_eight : (opField b).toNat < 8 := (opField b).isLt
  unfold decode
  split
  case h_8 => grind -- the arm of the codes that are none of 0 to 6
  all_goals exact ⟨_, rfl⟩

theorem decode_of_decodeTableWord {nbits w : Nat} {i : Instr} (h : decodeTableWord nbits w = some i) :
    decode (bundleOfTableWord nbits w) = .ok i := by
  unfold decodeTableWord at h
  split at h
  · next hd => rw [hd, Option.some.inj h]
  · cases h

/-! ## A step -/

theorem step_eq_exec {s : State} {q : Request} {rest : List Request} {i : Instr} (h : s.requests = q :: rest)
    (hd : decode q.bundle = .ok i) : step s = exec i s := by
  simp [step, h, hd]

/-- The request served next gets its delivery, and nothing else changes. -/
theorem step_delivers {s : State} {q : Request} {rest : List Request} {i : Instr} (h : s.requests = q :: rest)
    (hd : decode q.bundle = .ok i) :
    step s = .next { requests := rest, responses := s.responses ++ [q.delivery] } := by
  rw [step_eq_exec h hd, exec_eq_respond, respond_cons h, delivery_of_decode hd]

/-- All a step that answers a next state can do: nothing, or deliver the response to the request served next. -/
theorem step_next_cases {s t : State} (h : step s = .next t) :
    t = s ∨ ∃ q rest i, s.requests = q :: rest ∧ decode q.bundle = .ok i ∧
      t = { requests := rest, responses := s.responses ++ [q.delivery] } := by
  rcases step_next h with ⟨-, rfl⟩ | ⟨q, rest, i, hq, hd, -⟩
  · exact .inl rfl
  · rw [step_delivers hq hd] at h
    exact .inr ⟨q, rest, i, hq, hd, (Host.Outcome.next.inj h).symm⟩

theorem runSteps_succ_of_step {s t : State} (h : step s = .next t) (k : Nat) :
    runSteps (k + 1) s = runSteps k t := by
  simp [runSteps, h]

/-- As many steps as requests in progress deliver every response, in the order of service. -/
theorem runSteps_length_requests (rs : List Request) (ds : List Delivery)
    (h : ∀ q, q ∈ rs → q.bundle.extractLsb' 0 3 ≠ 0b111#3) :
    runSteps rs.length { requests := rs, responses := ds } =
      .next { requests := [], responses := ds ++ rs.map Request.delivery } := by
  induction rs generalizing ds with
  | nil => simp [runSteps]
  | cons q rest ih =>
    obtain ⟨i, hd⟩ := decode_ok_of_not_reserved (h q List.mem_cons_self)
    rw [List.length_cons, runSteps_succ_of_step (step_delivers rfl hd),
      ih _ fun p hp => h p (List.mem_cons_of_mem _ hp)]
    simp

/-! ## Reads -/

theorem readField_of_value {who n : Nat} {f : Field} {s : State} {r : Response} {v : Nat}
    (hr : (s.responsesTo who)[n]? = some r) (hv : r.read f = some v) : readField who n f s = .ok v := by
  simp [readField, hr, hv]

theorem readField_of_no_value {who n : Nat} {f : Field} {s : State} {r : Response}
    (hr : (s.responsesTo who)[n]? = some r) (hv : r.read f = none) : readField who n f s = .error (.noValue f) := by
  simp [readField, hr, hv]

theorem readField_of_no_response {who n : Nat} {f : Field} {s : State} (hr : (s.responsesTo who)[n]? = none) :
    readField who n f s = .error (.noValue f) := by
  simp [readField, hr]

theorem read_apply_of_ok {who n v : Nat} {f : Field} {s : State} (h : readField who n f s = .ok v) :
    (Move.read who n f).apply s = .next s := by
  simp [Move.apply, h]

theorem read_apply_of_error {who n : Nat} {f : Field} {s : State} {e : Fault} (h : readField who n f s = .error e) :
    (Move.read who n f).apply s = .fault e := by
  simp [Move.apply, h]

/-- A read that answers changes nothing (spec/20_memory.md R47). -/
theorem eq_of_read_apply_next {who n : Nat} {f : Field} {s t : State}
    (h : (Move.read who n f).apply s = .next t) : t = s := by
  cases hr : readField who n f s with
  | ok v => rw [read_apply_of_ok hr] at h; exact (Host.Outcome.next.inj h).symm
  | error e => rw [read_apply_of_error hr] at h; cases h

/-! ## An action of the whole system -/

/-- All that an action which answers a next state can do. -/
theorem act_next_cases {a : Option Move} {s t : State} (h : act a s = .next t) :
    (a = none ∧ step s = .next t) ∨
    (∃ place q, a = some (.issue place q) ∧ t = issue place q s) ∨
    (∃ who n f, a = some (.read who n f) ∧ t = s) ∨
    (a = some .reset ∧ t = State.reset) := by
  match a, h with
  | none, h => exact .inl ⟨rfl, h⟩
  | some (.issue place q), h => exact .inr (.inl ⟨place, q, rfl, (Host.Outcome.next.inj h).symm⟩)
  | some (.read who n f), h => exact .inr (.inr (.inl ⟨who, n, f, rfl, eq_of_read_apply_next h⟩))
  | some .reset, h => exact .inr (.inr (.inr ⟨rfl, (Host.Outcome.next.inj h).symm⟩))

theorem actAll_cons_next {a : Option Move} {rest : List (Option Move)} {s t : State}
    (h : actAll (a :: rest) s = .next t) : ∃ u, act a s = .next u ∧ actAll rest u = .next t := by
  cases ha : act a s with
  | next u => exact ⟨u, rfl, by simpa [actAll, ha] using h⟩
  | fault e => simp [actAll, ha] at h
  | refused e => simp [actAll, ha] at h

/-! ## The place of a new request -/

/-- A requester's own requests end before a stretch that holds none of them. -/
theorem ownPrefix_append_le {who : Nat} (before : List Request) {after : List Request}
    (h : ∀ p, p ∈ after → p.requester ≠ who) : ownPrefix who (before ++ after) ≤ before.length := by
  induction before with
  | nil => simp [ownPrefix_of_absent h]
  | cons q rest ih =>
    rw [List.cons_append, ownPrefix, List.length_cons]
    split
    · split <;> omega
    · omega

/-- Every place after a requester's own requests is one its new request can have. -/
theorem issuePlace_length_append {who : Nat} (before : List Request) {after : List Request}
    (h : ∀ p, p ∈ after → p.requester ≠ who) : issuePlace before.length who (before ++ after) = before.length := by
  have := ownPrefix_append_le before h
  rw [issuePlace, List.length_append]
  omega

/-! ## The responses of one requester, and its ledger -/

/-- Delivering the responses to a list of requests gives a requester those of its own requests, in their order. -/
theorem responsesTo_append_deliveries (who : Nat) (rs rs' : List Request) (ds : List Delivery) :
    State.responsesTo { requests := rs', responses := ds ++ rs.map Request.delivery } who =
      State.responsesTo { requests := rs', responses := ds } who ++
        (rs.filter fun q => q.requester == who).map fun q => q.delivery.response := by
  have own : (fun d : Delivery => d.requester == some who) ∘ Request.delivery = fun q => q.requester == who := by
    funext q
    simp [Delivery.requester]
  simp [State.responsesTo, List.filter_map, own, Function.comp_def]

@[simp] theorem reset_ledger (who : Nat) : State.reset.ledger who = [] := rfl

/-- A request that is answered stays in its place of the ledger. -/
theorem ledger_deliver {s : State} {q : Request} {rest : List Request} (h : s.requests = q :: rest) (who : Nat) :
    State.ledger { requests := rest, responses := s.responses ++ [q.delivery] } who = s.ledger who := by
  simp [State.ledger, h]

/-- A new request stands at the end of its requester's ledger and in no other. -/
theorem ledger_issue (place who : Nat) (q : Request) (s : State) :
    (issue place q s).ledger who = s.ledger who ++ if q.requester = who then [q] else [] := by
  have parts : s.requests = s.requests.take (issuePlace place q.requester s.requests) ++
      s.requests.drop (issuePlace place q.requester s.requests) := (List.take_append_drop _ _).symm
  have others := drop_issuePlace place q.requester s.requests
  rw [State.ledger, State.ledger, issue_requests, issue_responses]
  generalize s.requests.take (issuePlace place q.requester s.requests) = before at *
  generalize s.requests.drop (issuePlace place q.requester s.requests) = after at *
  rw [parts]
  by_cases hq : q.requester = who
  · have none_after : after.filter (fun p => p.requester == who) = [] := by
      simpa [hq] using others
    simp [hq, none_after]
  · simp [hq]

/-- The request of requester `who` that an action issues, if it does. -/
def issuedBy (who : Nat) : Option Move → Option Request
  | some (.issue _ q) => if q.requester = who then some q else none
  | _ => none

/-- Every action but a reset keeps a requester's ledger, and adds at its end the request it issues. -/
theorem ledger_of_act {a : Option Move} {s t : State} (who : Nat) (ha : a ≠ some .reset) (h : act a s = .next t) :
    t.ledger who = s.ledger who ++ (issuedBy who a).toList := by
  rcases act_next_cases h with ⟨rfl, hs⟩ | ⟨place, q, rfl, rfl⟩ | ⟨_, _, _, rfl, rfl⟩ | ⟨rfl, -⟩
  · rcases step_next_cases hs with rfl | ⟨q, rest, i, hq, -, rfl⟩
    · simp [issuedBy]
    · simp [issuedBy, ledger_deliver hq]
  · rw [ledger_issue, issuedBy]
    split <;> rfl
  · simp [issuedBy]
  · exact absurd rfl ha

theorem ledger_of_actAll (who : Nat) (actions : List (Option Move)) {s t : State}
    (ha : ∀ a, a ∈ actions → a ≠ some .reset) (h : actAll actions s = .next t) :
    t.ledger who = s.ledger who ++ actions.filterMap (issuedBy who) := by
  induction actions generalizing s with
  | nil => simp [Host.Outcome.next.inj h]
  | cons a rest ih =>
    obtain ⟨u, hu, hrest⟩ := actAll_cons_next h
    rw [ih (fun b hb => ha b (List.mem_cons_of_mem _ hb)) hrest, ledger_of_act who (ha a List.mem_cons_self) hu]
    cases hi : issuedBy who a <;> simp [hi]

/-! ## The statements -/

/-- Settles O50: only a step adds a response, and the one it delivers is the one the same request gets alone, since
`Request.delivery` looks at the request and at nothing else. -/
theorem everyActionKeepsResponsesFaithful : Obligations.EveryActionKeepsResponsesFaithful := by
  refine ⟨fun d hd => by simp at hd, fun a s t hs h => ?_⟩
  rcases act_next_cases h with ⟨-, hstep⟩ | ⟨place, q, -, rfl⟩ | ⟨_, _, _, -, rfl⟩ | ⟨-, rfl⟩
  · rcases step_next_cases hstep with rfl | ⟨q, rest, i, -, hd, rfl⟩
    · exact hs
    · intro d hmem
      rcases List.mem_append.1 hmem with held | new
      · exact hs d held
      · obtain rfl := List.mem_singleton.1 new
        exact ⟨q, rfl, step_delivers rfl hd⟩
  · exact hs
  · exact hs
  · intro d hd
    simp at hd

/-- Settles O44: each run delivers to `who` the responses of its own requests, which are the same in both states. -/
theorem requestersDoNotInterfere : Obligations.RequestersDoNotInterfere := by
  intro who s t hs ht own held
  refine ⟨_, _, runSteps_length_requests s.requests s.responses hs,
    runSteps_length_requests t.requests t.responses ht, ?_⟩
  rw [responsesTo_append_deliveries, responsesTo_append_deliveries, own]
  exact congrArg (· ++ _) held

/-- Settles O51, one action at a time by `ledger_of_act` and then by induction over the run. -/
theorem everyIssuedRequestHasOneResponseOrIsInProgress :
    Obligations.EveryIssuedRequestHasOneResponseOrIsInProgress := by
  constructor
  · intro who a s t ha h
    rw [ledger_of_act who ha h]
    match a with
    | none | some (.read _ _ _) | some .reset => rfl
    | some (.issue _ q) => by_cases hq : q.requester = who <;> simp [issuedBy, hq]
  · intro who actions s ha h
    rw [ledger_of_actAll who actions ha h, reset_ledger, List.nil_append]
    refine congrArg (actions.filterMap ·) (funext fun a => ?_)
    match a with
    | none | some (.read _ _ _) | some .reset | some (.issue _ _) => rfl

/-- Settles O1: the step is `exec` of what the head request decodes to, and a fetched word's request is the head. -/
theorem stepRunsTheDecodedRequest : Obligations.StepRunsTheDecodedRequest :=
  ⟨fun _ _ _ _ hq hd => step_eq_exec hq hd,
    fun s nbits w _ h => step_eq_exec (withFetchWord_requests s nbits w) (decode_of_decodeTableWord h)⟩

/-- Settles O2, by induction on the number of steps. -/
theorem idleBlockChangesNothing : Obligations.IdleBlockChangesNothing := by
  intro s k h
  induction k with
  | zero => rfl
  | succ k ih => rw [runSteps_succ_of_step (step_idle h), ih]

/-- Settles O45: a new request parts the list at its place, `drop_issuePlace` says that no request of its requester
stands behind it, and `issuePlace_length_append` that every such place is taken. -/
theorem issuingAddsOneRequestAndReadingChangesNothing :
    Obligations.IssuingAddsOneRequestAndReadingChangesNothing := by
  refine ⟨fun place q s => ?_, fun q before after ds h => ?_, fun _ _ _ _ _ h => eq_of_read_apply_next h⟩
  · exact ⟨_, _, (List.take_append_drop (issuePlace place q.requester s.requests) s.requests).symm,
      drop_issuePlace place q.requester s.requests, rfl⟩
  · refine ⟨before.length, ?_⟩
    simp [Move.apply, issue, issuePlace_length_append before h]

/-- Settles O46, one case of `readField` at a time. -/
theorem readingAFieldWithoutAValueFaults : Obligations.ReadingAFieldWithoutAValueFaults := by
  intro who n f s
  refine ⟨fun r v hr hv => ?_, fun r hr hv => ?_, fun hr => ?_⟩
  · have read := readField_of_value hr hv
    exact ⟨read, read_apply_of_ok read⟩
  · have read := readField_of_no_value hr hv
    exact ⟨read, read_apply_of_error read⟩
  · have read := readField_of_no_response (f := f) hr
    exact ⟨read, read_apply_of_error read⟩

end Sys2Proof.Machine

/-! # Proofs of the family 20_memory.md

The layer first: the identifier word and its bytes, the frame operations as equivalences, and the requests in progress
with their deliveries. Then the statements. -/

namespace Sys2Proof.Machine

/-! ## The identifier word and its bytes -/

/-- Unpacking reads back every field of an identifier that was packed (spec/30_encoding.md R61). -/
theorem unpackWord_idencWord (id : Identifier) : unpackWord (idencWord id) = id := by
  obtain ⟨value, extended, remote⟩ := id
  rw [Identifier.mk.injEq]
  refine ⟨BitVec.eq_of_getLsbD_eq fun i hi => ?_, ?_, ?_⟩
  · have not_flag : i ≠ 29 ∧ i ≠ 30 := by omega
    rw [unpackWord_value_getLsbD, idencWord, packWord_getLsbD, BitVec.testBit_toNat]
    simp [hi, not_flag]
  · rw [unpackWord_extended, idencWord, packWord_getLsbD]
    simp
  · rw [unpackWord_remote, idencWord, packWord_getLsbD]
    simp

/-- IDDEC of a word's bytes unpacks the word (spec/40_identifier.md R86). -/
theorem iddec_bytesLe32 (w : Word) : iddec (bytesLe32 w) = .ok (unpackWord w) :=
  congrArg (fun w => Result.ok (unpackWord w)) (Option.some.inj (wordOfBytes_bytesLe32 w))

theorem iddec_idenc (id : Identifier) : iddec (idenc id) = .ok id := by
  rw [idenc, iddec_bytesLe32, unpackWord_idencWord]

/-- IDDEC accepts every buffer of 4 bytes (spec/40_identifier.md R86). -/
theorem iddec_ok_of_length_eq {b : List Byte} (h : b.length = 4) : ∃ id, iddec b = .ok id := by
  obtain ⟨b0, b1, b2, b3, rfl⟩ := List.length_eq_four.1 h
  exact ⟨_, rfl⟩

/-! ## Frames -/

/-- Going on with a result ends in `b` exactly when the result was OK and what followed gave `b`. -/
theorem bind_eq_ok_iff {α β : Type} {r : Result α} {g : α → Result β} {b : β} :
    r.bind g = .ok b ↔ ∃ a, r = .ok a ∧ g a = .ok b := by
  cases r <;> simp [Result.bind]

/-- FRNEW gives the frame of its two operands and no other (spec/42_frame.md R120, R121); that the payload fits is part
of there being such a frame. -/
theorem frnew_eq_ok_iff {id : Identifier} {d : List Byte} {f : Frame} :
    frnew id d = .ok f ↔ f.id = id ∧ f.data = d := by
  constructor
  · intro h
    unfold frnew at h
    split at h
    · cases h
    · obtain rfl := Result.ok.inj h
      exact ⟨rfl, rfl⟩
  · rintro ⟨rfl, rfl⟩
    rw [frnew, dif_neg (Nat.not_lt.2 f.len_le)]

theorem frnew_of_length_gt {id : Identifier} {d : List Byte} (h : d.length > 8) : frnew id d = .lengthError := by
  rw [frnew, dif_pos h]

/-- FRDEC is IDDEC of the first 4 bytes and FRNEW of the rest, on a buffer of any length: its own two length checks
(spec/42_frame.md R131, R132) refuse exactly what these two refuse. -/
theorem frdec_eq_bind (b : List Byte) : frdec b = (iddec (b.take 4)).bind fun id => frnew id (b.drop 4) := by
  unfold frdec
  split
  case isTrue short =>
    have lt_four : b.length < 4 := short
    have word_short : (b.take 4).length ≠ 4 := by rw [List.length_take]; omega
    rw [iddec_of_length_ne _ word_short, Result.bind]
  case isFalse not_short =>
    have four_le : 4 ≤ b.length := Nat.le_of_not_lt not_short
    split
    case isTrue long =>
      obtain ⟨id, hid⟩ := iddec_ok_of_length_eq (List.length_take_of_le four_le)
      have payload_long : (b.drop 4).length > 8 := by rw [List.length_drop]; exact long
      rw [hid, Result.bind, frnew_of_length_gt payload_long]
    case isFalse => rfl

/-- What FRDEC accepts, and the frame it then gives (spec/42_frame.md R130). -/
theorem frdec_eq_ok_iff {b : List Byte} {f : Frame} :
    frdec b = .ok f ↔ iddec (b.take 4) = .ok f.id ∧ f.data = b.drop 4 := by
  simp only [frdec_eq_bind, bind_eq_ok_iff, frnew_eq_ok_iff]
  constructor
  · rintro ⟨id, hid, rfl, hdata⟩
    exact ⟨hid, hdata⟩
  · rintro ⟨hid, hdata⟩
    exact ⟨f.id, hid, rfl, hdata⟩

theorem frenc_take_four (f : Frame) : (frenc f).take 4 = idenc f.id := rfl

theorem frenc_drop_four (f : Frame) : (frenc f).drop 4 = f.data := rfl

theorem frdec_frenc (f : Frame) : frdec (frenc f) = .ok f := by
  rw [frdec_eq_ok_iff, frenc_take_four, frenc_drop_four]
  exact ⟨iddec_idenc f.id, rfl⟩

/-! ## A request alone -/

/-- Alone in progress, a request with an operation gets its delivery. -/
theorem step_alone {q : Request} (h : q.bundle.extractLsb' 0 3 ≠ 0b111#3) :
    step { requests := [q], responses := [] } = .next { requests := [], responses := [q.delivery] } := by
  obtain ⟨i, hd⟩ := decode_ok_of_not_reserved h
  exact step_delivers rfl hd

/-- The deliveries of a list of requests are its requests beside their responses. -/
theorem map_delivery_eq_zipWith (rs : List Request) :
    rs.map Request.delivery =
      List.zipWith (fun q r => { request := some q, response := r }) rs (rs.map fun q => q.delivery.response) := by
  rw [List.zipWith_map_right, List.zipWith_self]
  rfl

/-! ## The statements -/

/-- Settles O27: past the first 4 bytes, FRENC's buffer and the buffer FRDEC accepts are the payload, whatever the
identifier's remote flag. -/
theorem payloadBytesAreCarriedVerbatim : Obligations.PayloadBytesAreCarriedVerbatim := by
  refine ⟨fun f k => ?_, fun b f h k => ?_, fun v e d hd => ?_⟩
  · rw [← List.getElem?_drop, frenc_drop_four]
  · obtain ⟨-, hdata⟩ := frdec_eq_ok_iff.1 h
    rw [hdata, List.getElem?_drop]
  · exact ⟨⟨_, d, hd⟩, frnew_eq_ok_iff.2 ⟨rfl, rfl⟩, rfl, frdec_frenc _⟩

/-- Settles O43: the run delivers to each request in progress `Request.delivery`, which looks at that request alone and
is what it gets when nothing else is in progress. -/
theorem everyInterleavingAnswersEachRequestAsAlone : Obligations.EveryInterleavingAnswersEachRequestAsAlone := by
  intro s hs
  refine ⟨s.requests.map fun q => q.delivery.response, List.length_map _, ?_, fun k q r hq hr => ?_⟩
  · rw [← map_delivery_eq_zipWith]
    exact runSteps_length_requests s.requests s.responses hs
  · obtain rfl : q.delivery.response = r := by simpa [hq] using hr
    exact step_alone (hs q (List.mem_of_getElem? hq))

/-- Settles O32: `portResponse i` is the response on every state, and `respond` is the frame. -/
theorem responseDependsOnTheRequestAlone : Obligations.ResponseDependsOnTheRequestAlone :=
  fun i => ⟨portResponse i, exec_eq_respond i⟩

end Sys2Proof.Machine

/-! # Proofs of the family 30_encoding.md

Part by part, each its lemmas and then its statements: the request bundle; legal responses and safe states; the bits of
a response and of an identifier word, and the operands; the two levels and the pseudo-operations; the request lines. -/

namespace Sys2Proof

/-! ## The fields of a packed request -/

section PackRequest
variable (op : BitVec 3) (val : BitVec 32) (ext rtr : Bool) (buf : InBuf)

/-- Below bit 45 a packed request has its fields and no byte of INBUF. -/
theorem packRequest_getLsbD_of_lt {i : Nat} (h : i < 45) :
    (packRequest op val ext rtr buf).getLsbD i =
      (op.getLsbD i || (decide (3 ≤ i) && val.getLsbD (i - 3)) || (decide (i = 35) && ext) ||
        (decide (i = 36) && rtr) || (decide (37 ≤ i) && buf.inlen.getLsbD (i - 37))) := by
  have flag (b : Bool) (lo : Nat) : (place (BitVec.ofBool b) lo).getLsbD i = (decide (i = lo) && b) := by
    rw [place_getLsbD, BitVec.getLsbD_ofBool]
    by_cases hi : i = lo
    · simp [hi, show lo < 141 by omega]
    · have elsewhere : lo ≤ i → i - lo ≠ 0 := by omega
      by_cases hlo : lo ≤ i
      · simp [hi, elsewhere hlo]
      · simp [hi, hlo]
  rw [packRequest_getLsbD, placeBytes_getLsbD_below _ _ _ h, flag, flag]
  simp only [place_getLsbD]
  simp [show i < 141 by omega]

theorem packRequest_getLsbD_op {j : Nat} (h : j < 3) :
    (packRequest op val ext rtr buf).getLsbD j = op.getLsbD j := by
  have apart : ¬ 3 ≤ j ∧ j ≠ 35 ∧ j ≠ 36 ∧ ¬ 37 ≤ j := by omega
  rw [packRequest_getLsbD_of_lt _ _ _ _ _ (by omega)]
  simp [apart]

theorem packRequest_getLsbD_val {j : Nat} (h : j < 32) :
    (packRequest op val ext rtr buf).getLsbD (3 + j) = val.getLsbD j := by
  have apart : 3 + j ≠ 35 ∧ 3 + j ≠ 36 ∧ ¬ 37 ≤ 3 + j := by omega
  rw [packRequest_getLsbD_of_lt _ _ _ _ _ (by omega), op.getLsbD_of_ge _ (by omega)]
  simp [apart]

theorem packRequest_getLsbD_ext : (packRequest op val ext rtr buf).getLsbD 35 = ext := by
  rw [packRequest_getLsbD_of_lt _ _ _ _ _ (by omega)]
  simp

theorem packRequest_getLsbD_rtr : (packRequest op val ext rtr buf).getLsbD 36 = rtr := by
  rw [packRequest_getLsbD_of_lt _ _ _ _ _ (by omega)]
  simp

theorem packRequest_getLsbD_inlen {j : Nat} (h : j < 8) :
    (packRequest op val ext rtr buf).getLsbD (37 + j) = buf.inlen.getLsbD j := by
  have apart : 37 + j ≠ 35 ∧ 37 + j ≠ 36 := by omega
  rw [packRequest_getLsbD_of_lt _ _ _ _ _ (by omega), op.getLsbD_of_ge _ (by omega),
    val.getLsbD_of_ge _ (by omega)]
  simp [apart]

theorem packRequest_getLsbD_inbuf {k j : Nat} (hk : k < 12) (hj : j < 8) :
    (packRequest op val ext rtr buf).getLsbD (45 + 8 * k + j) = (buf.bytes.getD k 0#8).getLsbD j := by
  have above {w : Nat} (f : BitVec w) (lo : Nat) (h : lo + w ≤ 45) :
      (place f lo).getLsbD (45 + 8 * k + j) = false := by
    rw [place_getLsbD, f.getLsbD_of_ge _ (by omega), Bool.and_false]
  rw [packRequest_getLsbD, placeBytes_getLsbD _ _ _ _ hj (by omega), above op, above val, above (BitVec.ofBool ext),
    above (BitVec.ofBool rtr), above buf.inlen]
  · simp
  all_goals omega

theorem valField_packRequest : valField (packRequest op val ext rtr buf) = val := by
  refine BitVec.eq_of_getLsbD_eq fun j hj => ?_
  rw [valField, BitVec.getLsbD_extractLsb', packRequest_getLsbD_val _ _ _ _ _ hj]
  simp [hj]

theorem extField_packRequest : extField (packRequest op val ext rtr buf) = ext :=
  packRequest_getLsbD_ext op val ext rtr buf

theorem rtrField_packRequest : rtrField (packRequest op val ext rtr buf) = rtr :=
  packRequest_getLsbD_rtr op val ext rtr buf

theorem inlenField_packRequest : inlenField (packRequest op val ext rtr buf) = buf.inlen := by
  refine BitVec.eq_of_getLsbD_eq fun j hj => ?_
  rw [inlenField, BitVec.getLsbD_extractLsb', packRequest_getLsbD_inlen _ _ _ _ _ hj]
  simp [hj]

theorem inbufByte_packRequest {k : Nat} (hk : k < 12) :
    inbufByte (packRequest op val ext rtr buf) k = buf.bytes.getD k 0#8 := by
  refine BitVec.eq_of_getLsbD_eq fun j hj => ?_
  rw [inbufByte, BitVec.getLsbD_extractLsb', packRequest_getLsbD_inbuf _ _ _ _ _ hk hj]
  simp [hj]

/-- Reading INLEN and INBUF back gives a well-formed buffer: it has no byte that INLEN does not cover. -/
theorem inBufField_packRequest (h : buf.wellFormed = true) : inBufField (packRequest op val ext rtr buf) = buf := by
  obtain ⟨inlen, bytes⟩ := buf
  have length_eq : bytes.length = min inlen.toNat 12 := by simpa [InBuf.wellFormed, Config.inbufCap] using h
  rw [inBufField, inlenField_packRequest, InBuf.mk.injEq]
  refine ⟨rfl, List.ext_getElem (by simpa using length_eq.symm) fun k _ hk => ?_⟩
  have carried : k < 12 := by omega
  simp [inbufByte_packRequest _ _ _ _ _ carried, hk]

end PackRequest

/-! ## The decoder, code by code -/

section Codes
variable {b : ReqBundle}

theorem decode_idnew (h : opField b = 0b000#3) : decode b = .ok (.idnew (valField b) (extField b) (rtrField b)) := by
  simp [decode, h]

theorem decode_idenc (h : opField b = 0b001#3) : decode b = .ok (.idenc (valField b) (extField b) (rtrField b)) := by
  simp [decode, h]

theorem decode_iddec (h : opField b = 0b010#3) : decode b = .ok (.iddec (inBufField b)) := by
  simp [decode, h]

theorem decode_mask (h : opField b = 0b011#3) : decode b = .ok (.mask (valField b) (extField b) (rtrField b)) := by
  simp [decode, h]

theorem decode_frnew (h : opField b = 0b100#3) :
    decode b = .ok (.frnew (valField b) (extField b) (rtrField b) (inBufField b)) := by
  simp [decode, h]

theorem decode_frenc (h : opField b = 0b101#3) :
    decode b = .ok (.frenc (valField b) (extField b) (rtrField b) (inBufField b)) := by
  simp [decode, h]

theorem decode_frdec (h : opField b = 0b110#3) : decode b = .ok (.frdec (inBufField b)) := by
  simp [decode, h]

theorem decode_reserved (h : opField b = 0b111#3) : decode b = .error .reservedOperation := by
  simp [decode, h]

end Codes

open Laws.EncodeOpcode (opField_packRequest) in
/-- Encoding an operation and decoding it reads back every operand (spec/30_encoding.md R65, R66). -/
theorem decode_encode {i : Instr} (h : i.wellFormed = true) : decode (encode i) = .ok i := by
  cases i with
  | idnew val ext rtr =>
    rw [encode, decode_idnew (opField_packRequest ..), valField_packRequest, extField_packRequest, rtrField_packRequest]
  | idenc val ext rtr =>
    rw [encode, decode_idenc (opField_packRequest ..), valField_packRequest, extField_packRequest, rtrField_packRequest]
  | iddec buf => rw [encode, decode_iddec (opField_packRequest ..), inBufField_packRequest _ _ _ _ _ h]
  | mask val ext rtr =>
    rw [encode, decode_mask (opField_packRequest ..), valField_packRequest, extField_packRequest, rtrField_packRequest]
  | frnew val ext rtr buf =>
    rw [encode, decode_frnew (opField_packRequest ..), valField_packRequest, extField_packRequest,
      rtrField_packRequest, inBufField_packRequest _ _ _ _ _ h]
  | frenc val ext rtr buf =>
    rw [encode, decode_frenc (opField_packRequest ..), valField_packRequest, extField_packRequest,
      rtrField_packRequest, inBufField_packRequest _ _ _ _ _ h]
  | frdec buf => rw [encode, decode_frdec (opField_packRequest ..), inBufField_packRequest _ _ _ _ _ h]

/-! ## Which bundles decode, and what they decode to -/

theorem inBufField_wellFormed (b : ReqBundle) : (inBufField b).wellFormed = true := by
  simp [InBuf.wellFormed, inBufField]

/-- The codes of OP, one by one (spec/30_encoding.md R66, R71). -/
theorem op_cases (op : BitVec 3) :
    op = 0b000#3 ∨ op = 0b001#3 ∨ op = 0b010#3 ∨ op = 0b011#3 ∨ op = 0b100#3 ∨ op = 0b101#3 ∨ op = 0b110#3 ∨
      op = 0b111#3 := by
  revert op
  decide

theorem decode_wellFormed {b : ReqBundle} {i : Instr} (h : decode b = .ok i) : i.wellFormed = true := by
  have buffer := inBufField_wellFormed b
  rcases op_cases (opField b) with op | op | op | op | op | op | op | op
  · rw [decode_idnew op] at h; cases h; rfl
  · rw [decode_idenc op] at h; cases h; rfl
  · rw [decode_iddec op] at h; cases h; exact buffer
  · rw [decode_mask op] at h; cases h; rfl
  · rw [decode_frnew op] at h; cases h; exact buffer
  · rw [decode_frenc op] at h; cases h; exact buffer
  · rw [decode_frdec op] at h; cases h; exact buffer
  · rw [decode_reserved op] at h; cases h

/-- VAL, EXT and RTR lie side by side in bits 36..3. -/
theorem identifierFields_congr {b b' : ReqBundle} (h : b.extractLsb' 3 34 = b'.extractLsb' 3 34) :
    valField b = valField b' ∧ extField b = extField b' ∧ rtrField b = rtrField b' := by
  have bit (j : Nat) (hj : j < 34) : b.getLsbD (3 + j) = b'.getLsbD (3 + j) := by
    simpa [hj] using congrArg (·.getLsbD j) h
  refine ⟨BitVec.eq_of_getLsbD_eq fun j hj => ?_, bit 32 (by omega), bit 33 (by omega)⟩
  rw [valField, valField, BitVec.getLsbD_extractLsb', BitVec.getLsbD_extractLsb', bit j (by omega)]

/-- The input buffer depends on INLEN and the bytes it covers alone (spec/30_encoding.md R65). -/
theorem inBufField_congr {b b' : ReqBundle} (inlen : b.extractLsb' 37 8 = b'.extractLsb' 37 8)
    (byte : ∀ k, k < (b.extractLsb' 37 8).toNat → k < 12 →
      b.extractLsb' (45 + 8 * k) 8 = b'.extractLsb' (45 + 8 * k) 8) : inBufField b = inBufField b' := by
  have inlen' : inlenField b = inlenField b' := inlen
  rw [inBufField, inBufField, ← inlen', InBuf.mk.injEq]
  refine ⟨rfl, List.map_congr_left fun k hk => ?_⟩
  obtain ⟨covered, carried⟩ := Nat.lt_min.1 (List.mem_range.1 hk)
  exact byte k covered carried

/-! ## The statements about the request bundle -/

/-- Settles O8: every field is read back from the bits at which it was placed. -/
theorem decodeOfEncodeIsTheInstruction : Obligations.DecodeOfEncodeIsTheInstruction :=
  fun _ h => decode_encode h

/-- Settles O4: every other code has an arm of the decoder, and a decoded buffer carries what INLEN covers. -/
theorem onlyTheReservedCodeIsRejected : Obligations.OnlyTheReservedCodeIsRejected := by
  refine fun b => ⟨fun h => ?_, fun h => decode_reserved h⟩
  obtain ⟨i, hi⟩ := Machine.decode_ok_of_not_reserved h
  exact ⟨i, hi, decode_wellFormed hi⟩

/-- Settles O5, code by code: the hypotheses give each operation the fields it reads. -/
theorem unreadFieldsAreIgnored : Obligations.UnreadFieldsAreIgnored := by
  intro b b' hop hid hbuf
  have op' {c : BitVec 3} (op : opField b = c) : opField b' = c := hop.symm.trans op
  have identifier (op : opField b ≠ 0b010#3 ∧ opField b ≠ 0b110#3) :=
    identifierFields_congr (hid op.1 op.2)
  have buffer (op : opField b ≠ 0b000#3 ∧ opField b ≠ 0b001#3 ∧ opField b ≠ 0b011#3) :
      inBufField b = inBufField b' := by
    obtain ⟨inlen, byte⟩ := hbuf op.1 op.2.1 op.2.2
    exact inBufField_congr inlen byte
  rcases op_cases (opField b) with op | op | op | op | op | op | op | op <;> simp only [op] at identifier buffer
  · obtain ⟨val, ext, rtr⟩ := identifier (by decide)
    rw [decode_idnew op, decode_idnew (op' op), val, ext, rtr]
  · obtain ⟨val, ext, rtr⟩ := identifier (by decide)
    rw [decode_idenc op, decode_idenc (op' op), val, ext, rtr]
  · rw [decode_iddec op, decode_iddec (op' op), buffer (by decide)]
  · obtain ⟨val, ext, rtr⟩ := identifier (by decide)
    rw [decode_mask op, decode_mask (op' op), val, ext, rtr]
  · obtain ⟨val, ext, rtr⟩ := identifier (by decide)
    rw [decode_frnew op, decode_frnew (op' op), val, ext, rtr, buffer (by decide)]
  · obtain ⟨val, ext, rtr⟩ := identifier (by decide)
    rw [decode_frenc op, decode_frenc (op' op), val, ext, rtr, buffer (by decide)]
  · rw [decode_frdec op, decode_frdec (op' op), buffer (by decide)]
  · rw [decode_reserved op, decode_reserved (op' op)]

/-- Settles O6: the fields of a bundle lie apart, so at each bit at most one of them stands. -/
theorem requestFieldsStandAtTheirBits : Obligations.RequestFieldsStandAtTheirBits :=
  fun op val ext rtr buf =>
    ⟨fun _ => packRequest_getLsbD_op op val ext rtr buf, fun _ => packRequest_getLsbD_val op val ext rtr buf,
      packRequest_getLsbD_ext op val ext rtr buf, packRequest_getLsbD_rtr op val ext rtr buf,
      fun _ => packRequest_getLsbD_inlen op val ext rtr buf, fun _ _ => packRequest_getLsbD_inbuf op val ext rtr buf⟩

/-- Settles O3: decoding refuses the code, and the first step of a run is refused with it. -/
theorem reservedOperationIsRefused : Obligations.ReservedOperationIsRefused := by
  intro s q rest k hq hop
  have refused : Machine.step s = .refused .reservedOperation := by
    rw [Machine.step_request hq, decode_reserved hop]
  exact ⟨refused, by rw [Machine.runSteps, refused]⟩

/-- Settles O7, by evaluating the decoder on each of the words. -/
theorem specRequestWordsDecode : Obligations.SpecRequestWordsDecode := by
  unfold Obligations.SpecRequestWordsDecode
  decide

end Sys2Proof

namespace Sys2Proof.Machine

/-! ## The bits of an identifier word -/

/-- No packed word has bit 31 set (spec/30_encoding.md R62). -/
theorem packWord_getLsbD_31 (v : Nat) (e r : Bool) : (packWord v e r).getLsbD 31 = false := by
  rw [packWord_getLsbD]
  simp

/-- Byte 3 is the top byte of the word. -/
theorem bytesLe32_three_getLsbD {w : Word} {b : Byte} (h : (bytesLe32 w)[3]? = some b) :
    b.getLsbD 7 = w.getLsbD 31 := by
  obtain rfl := Option.some.inj h
  exact bytesLe32_getLsbD w 3 7 (by decide) (by decide)

/-! ## The error each operation can raise -/

theorem idnew_ne_lengthError (v : Nat) (e r : Bool) : idnew v e r ≠ .lengthError := by
  unfold idnew
  split <;> exact nofun

/-- A buffer of 4 bytes is decoded, and every other one is a LengthError (spec/40_identifier.md R86). -/
theorem iddec_ne_rangeError (b : List Byte) : iddec b ≠ .rangeError := by
  by_cases four : b.length = 4
  · obtain ⟨id, hid⟩ := iddec_ok_of_length_eq four
    simp [hid]
  · simp [iddec_of_length_ne b four]

theorem frnew_ne_rangeError (id : Identifier) (d : List Byte) : frnew id d ≠ .rangeError := by
  unfold frnew
  split <;> exact nofun

theorem frdec_ne_rangeError (b : List Byte) : frdec b ≠ .rangeError := by
  rw [frdec_eq_bind]
  cases word : iddec (b.take 4) with
  | ok id => exact frnew_ne_rangeError id (b.drop 4)
  | rangeError => exact absurd word (iddec_ne_rangeError _)
  | lengthError => exact nofun

/-- Carrying a buffer at the port adds no error but LengthError (spec/30_encoding.md R65). -/
theorem onBuffer_ne_rangeError {α : Type} (b : InBuf) {op : List Byte → Result α}
    (h : ∀ bytes, op bytes ≠ .rangeError) : onBuffer b op ≠ .rangeError := by
  unfold onBuffer
  split
  · exact h _
  · exact nofun

theorem map_ne_rangeError {α β : Type} {r : Result α} (f : α → β) (h : r ≠ .rangeError) : r.map f ≠ .rangeError := by
  cases r with
  | ok a => exact nofun
  | rangeError => exact absurd rfl h
  | lengthError => exact nofun

theorem map_eq_ok_iff {α β : Type} {r : Result α} {f : α → β} {b : β} :
    r.map f = .ok b ↔ ∃ a, r = .ok a ∧ f a = b := by
  cases r <;> simp [Result.map]

/-! ## What a legal response holds -/

section Legal
variable {r : Response} {d : DefinedFields} {i : Instr}

/-- The two kinds of a legal response: OK with the row's fields, or an error of the row with no result. -/
theorem legalFor_iff :
    r.legalFor i = true ↔
      (r.err = .ok ∧ r.defines (definedFields i) = true ∧ r.wordsClear = true) ∨
      (r.err ≠ .ok ∧ r.err ∈ errorsOf i ∧ r.noResult = true) := by
  unfold Response.legalFor
  split <;> simp [*]

theorem noResult_iff :
    r.noResult = true ↔
      r.oval = none ∧ r.oext = none ∧ r.ortr = none ∧ r.oword = none ∧ r.olen = none ∧ r.obuf = [] := by
  simp [Response.noResult, and_assoc]

theorem wordsClear_iff :
    r.wordsClear = true ↔
      (∀ w, r.oword = some w → w.getLsbD 31 = false ∧ (r.olen = none ∨ wordOfBytes r.obuf = some w)) ∧
      (r.oval.isSome = true ∨ ∀ b, r.obuf[3]? = some b → b.getLsbD 7 = false) := by
  simp [Response.wordsClear, Option.all_eq_true]

/-- With no output buffer, OLEN and OBUF hold no value. -/
theorem defines_iff_of_no_buffer (h : d.buffer = none) :
    r.defines d = true ↔
      (r.oval.isSome = d.identifier ∧ r.oext.isSome = d.identifier ∧ r.ortr.isSome = d.identifier ∧
        r.oword.isSome = d.word) ∧ r.olen = none ∧ r.obuf = [] := by
  simp [Response.defines, h]

/-- With an output buffer, OLEN is its length, which lies within the row's bounds. -/
theorem defines_iff_of_buffer {least most : Nat} (h : d.buffer = some (least, most)) :
    r.defines d = true ↔
      (r.oval.isSome = d.identifier ∧ r.oext.isSome = d.identifier ∧ r.ortr.isSome = d.identifier ∧
        r.oword.isSome = d.word) ∧
      r.olen = some (BitVec.ofNat 4 r.obuf.length) ∧ least ≤ r.obuf.length ∧ r.obuf.length ≤ most := by
  simp [Response.defines, h]

/-- Which of the fields but OLEN and OBUF hold a value. -/
theorem isSome_of_defines (h : r.defines d = true) :
    r.oval.isSome = d.identifier ∧ r.oext.isSome = d.identifier ∧ r.ortr.isSome = d.identifier ∧
      r.oword.isSome = d.word := by
  cases hb : d.buffer with
  | none => exact ((defines_iff_of_no_buffer hb).1 h).1
  | some bounds => exact ((defines_iff_of_buffer hb).1 h).1

/-- An operation's response is legal when what it defines on OK is, and each error it gives is one of its row. -/
theorem legalFor_respondWith {α : Type} {define : α → Response → Response} {res : Result α}
    (ok : ∀ a, res = .ok a →
      (define a (Response.bare .ok)).err = .ok ∧
      (define a (Response.bare .ok)).defines (definedFields i) = true ∧
      (define a (Response.bare .ok)).wordsClear = true)
    (range : res ≠ .rangeError ∨ .range ∈ errorsOf i) (length : res ≠ .lengthError ∨ .length ∈ errorsOf i) :
    (respondWith define res).legalFor i = true := by
  rw [legalFor_iff]
  cases res with
  | ok a => exact .inl (ok a rfl)
  | rangeError => exact .inr ⟨nofun, range.resolve_left (· rfl), rfl⟩
  | lengthError => exact .inr ⟨nofun, length.resolve_left (· rfl), rfl⟩

end Legal

/-- IDENC's fields: its bytes and their word (spec/30_encoding.md R69). -/
theorem portResponse_idenc (val : BitVec 32) (ext rtr : Bool) :
    portResponse (.idenc val ext rtr) =
      ((Response.bare .ok).withBuffer (idenc (identifierOperand val ext rtr))).withWord
        (idencWord (identifierOperand val ext rtr)) :=
  defineIdBytes_bytesLe32 _ _

/-- FRNEW's and FRDEC's fields on OK: the identifier, and a payload of at most 8 bytes. -/
theorem defineFrame_defines (f : Frame) :
    (defineFrame f (Response.bare .ok)).defines { identifier := true, word := false, buffer := some (0, 8) } = true :=
  (defines_iff_of_buffer rfl).2 ⟨⟨rfl, rfl, rfl, rfl⟩, rfl, Nat.zero_le _, f.len_le⟩

/-- IDNEW's and IDDEC's response carries no word. -/
theorem withIdentifier_wordsClear (id : Identifier) : ((Response.bare .ok).withIdentifier id).wordsClear = true :=
  wordsClear_iff.2 ⟨nofun, .inl rfl⟩

/-- Nor does FRNEW's and FRDEC's: beside an identifier the buffer is payload. -/
theorem defineFrame_wordsClear (f : Frame) : (defineFrame f (Response.bare .ok)).wordsClear = true :=
  wordsClear_iff.2 ⟨nofun, .inl rfl⟩

/-- Every operation's response is legal for it, whatever its operands (spec/30_encoding.md R69, R62). -/
theorem portResponse_legalFor (i : Instr) : (portResponse i).legalFor i = true := by
  cases i with
  | idnew val ext rtr =>
    refine legalFor_respondWith (fun v _ => ⟨rfl, rfl, withIdentifier_wordsClear v.id⟩) (.inr List.mem_cons_self)
      (.inl ?_)
    exact idnew_ne_lengthError _ ext rtr
  | idenc val ext rtr =>
    rw [portResponse_idenc]
    refine legalFor_iff.2 (.inl ⟨rfl, rfl, wordsClear_iff.2 ⟨fun w hw => ?_, .inr fun b hb => ?_⟩⟩)
    · obtain rfl := Option.some.inj hw
      exact ⟨packWord_getLsbD_31 _ _ _, .inr (wordOfBytes_bytesLe32 _)⟩
    · rw [bytesLe32_three_getLsbD hb, idencWord, packWord_getLsbD_31]
  | iddec buf =>
    refine legalFor_respondWith (fun id _ => ⟨rfl, rfl, withIdentifier_wordsClear id⟩) (.inl ?_)
      (.inr List.mem_cons_self)
    exact onBuffer_ne_rangeError buf iddec_ne_rangeError
  | mask val ext rtr =>
    refine legalFor_iff.2 (.inl ⟨rfl, rfl, wordsClear_iff.2 ⟨fun w hw => ?_, .inr nofun⟩⟩)
    obtain rfl := Option.some.inj hw
    exact ⟨packWord_getLsbD_31 _ _ _, .inl rfl⟩
  | frnew val ext rtr buf =>
    refine legalFor_respondWith (fun f _ => ⟨rfl, defineFrame_defines f, defineFrame_wordsClear f⟩) (.inl ?_)
      (.inr List.mem_cons_self)
    exact onBuffer_ne_rangeError buf (frnew_ne_rangeError _)
  | frenc val ext rtr buf =>
    refine legalFor_respondWith (fun b hb => ?_) (.inl ?_) (.inr List.mem_cons_self)
    · obtain ⟨f, -, rfl⟩ := map_eq_ok_iff.1 hb
      have length_eq : (frenc f).length = 4 + f.data.length := List.length_append ..
      have payload : f.data.length ≤ 8 := f.len_le
      refine ⟨rfl, (defines_iff_of_buffer rfl).2 ⟨⟨rfl, rfl, rfl, rfl⟩, rfl, ?_⟩, ?_⟩
      · rw [withBuffer_obuf, length_eq]
        exact ⟨Nat.le_add_right .., Nat.add_le_add_left payload 4⟩
      · refine wordsClear_iff.2 ⟨nofun, .inr fun b hb => ?_⟩
        rw [bytesLe32_three_getLsbD (w := idencWord f.id) hb, idencWord, packWord_getLsbD_31]
    · exact map_ne_rangeError _ (onBuffer_ne_rangeError buf (frnew_ne_rangeError _))
  | frdec buf =>
    refine legalFor_respondWith (fun f _ => ⟨rfl, defineFrame_defines f, defineFrame_wordsClear f⟩) (.inl ?_)
      (.inr List.mem_cons_self)
    exact onBuffer_ne_rangeError buf frdec_ne_rangeError

/-! ## Safe states -/

/-- The delivery of a request that selects an operation is legal. -/
theorem delivery_legal {q : Request} {i : Instr} (h : decode q.bundle = .ok i) : q.delivery.legal = true := by
  simp [delivery_of_decode h, Delivery.legal, h, portResponse_legalFor]

/-- Delivering one more response keeps a state safe, whatever is left in progress. -/
theorem safe_deliver {s : State} {q : Request} {i : Instr} (hs : s.safe = true) (h : decode q.bundle = .ok i)
    (rest : List Request) : State.safe { requests := rest, responses := s.responses ++ [q.delivery] } = true := by
  have held : s.responses.all Delivery.legal = true := hs
  simp [State.safe, held, delivery_legal h]

theorem safe_step {s t : State} (hs : s.safe = true) (h : step s = .next t) : t.safe = true := by
  rcases step_next_cases h with rfl | ⟨q, rest, i, -, hd, rfl⟩
  · exact hs
  · exact safe_deliver hs hd rest

/-! ## What follows from legality -/

section Legal
variable {r : Response} {i : Instr}

/-- No legal response has bit 31 of OWORD set. -/
theorem oword_getLsbD_31_of_legalFor (h : r.legalFor i = true) {w : Word} (hw : r.oword = some w) :
    w.getLsbD 31 = false := by
  rcases legalFor_iff.1 h with ⟨-, -, clear⟩ | ⟨-, -, empty⟩
  · exact ((wordsClear_iff.1 clear).1 w hw).1
  · obtain ⟨-, -, -, no_word, -⟩ := noResult_iff.1 empty
    rw [no_word] at hw
    cases hw

/-- Nor has byte 3 of a buffer that is no payload. -/
theorem obuf_three_getLsbD_of_legalFor (h : r.legalFor i = true) (hi : (definedFields i).identifier = false) {b : Byte}
    (hb : r.obuf[3]? = some b) : b.getLsbD 7 = false := by
  rcases legalFor_iff.1 h with ⟨-, defines, clear⟩ | ⟨-, -, empty⟩
  · have no_identifier : ¬ r.oval.isSome = true := by
      rw [(isSome_of_defines defines).1, hi]
      exact Bool.false_ne_true
    exact (wordsClear_iff.1 clear).2.resolve_left no_identifier b hb
  · obtain ⟨-, -, -, -, -, no_buffer⟩ := noResult_iff.1 empty
    rw [no_buffer] at hb
    cases hb

/-- No row's buffer is longer than a frame's (spec/20_memory.md R45). -/
theorem definedFields_buffer_le {least most : Nat} (h : (definedFields i).buffer = some (least, most)) :
    most ≤ 12 := by
  cases i <;> cases h <;> decide

/-- Which fields hold a value is what the row says (spec/30_encoding.md R69). -/
theorem read_isSome_of_defines {d : DefinedFields} (h : r.defines d = true) :
    [r.read .oval, r.read .oext, r.read .ortr, r.read .oword, r.read .olen].map Option.isSome =
      [d.identifier, d.identifier, d.identifier, d.word, d.buffer.isSome] := by
  obtain ⟨oval, oext, ortr, oword⟩ := isSome_of_defines h
  have olen : r.olen.isSome = d.buffer.isSome := by
    cases hb : d.buffer with
    | none =>
      obtain ⟨-, no_olen, -⟩ := (defines_iff_of_no_buffer hb).1 h
      rw [no_olen]
      rfl
    | some bounds =>
      obtain ⟨-, length, -⟩ := (defines_iff_of_buffer hb).1 h
      rw [length]
      rfl
  simp [Response.read, oval, oext, ortr, oword, olen]

/-- OBUF[k] holds a value exactly below OLEN (spec/30_encoding.md R67). -/
theorem read_obuf_isSome_iff_of_defines (h : r.defines (definedFields i) = true) (k : Fin 12) :
    (r.read (.obuf k)).isSome = true ↔ ∃ n, r.read .olen = some n ∧ k.val < n := by
  cases hb : (definedFields i).buffer with
  | none =>
    obtain ⟨-, olen, obuf⟩ := (defines_iff_of_no_buffer hb).1 h
    simp [Response.read, olen, obuf]
  | some bounds =>
    obtain ⟨-, olen, -, most⟩ := (defines_iff_of_buffer hb).1 h
    have fits : r.obuf.length < 16 := Nat.lt_of_le_of_lt (Nat.le_trans most (definedFields_buffer_le hb)) (by decide)
    simp [Response.read, olen, Nat.mod_eq_of_lt fits]

end Legal

/-! ## The statements about responses -/

/-- Settles O48: the one response a step can add is the operation's, which is legal for it. -/
theorem everyStepKeepsTheStateSafe : Obligations.EveryStepKeepsTheStateSafe :=
  fun _ _ => safe_step

/-- Settles O49: of all actions a step alone delivers a response. -/
theorem everyActionKeepsTheStateSafe : Obligations.EveryActionKeepsTheStateSafe := by
  refine ⟨rfl, fun a s t hs h => ?_⟩
  rcases act_next_cases h with ⟨-, hstep⟩ | ⟨place, q, -, rfl⟩ | ⟨_, _, _, -, rfl⟩ | ⟨-, rfl⟩
  · exact safe_step hs hstep
  · exact hs
  · exact hs
  · rfl

/-- Settles O35: the response is legal, and where it is OK it has the fields of the operation's row. -/
theorem definedFieldsAreThoseOfTheTable : Obligations.DefinedFieldsAreThoseOfTheTable := by
  refine fun i s _ => ⟨portResponse i, exec_eq_respond i s, fun ok => ?_⟩
  obtain ⟨-, defines, clear⟩ := (legalFor_iff.1 (portResponse_legalFor i)).resolve_right fun error => error.1 ok
  refine ⟨?_, read_obuf_isSome_iff_of_defines defines, ?_⟩
  · rw [read_isSome_of_defines defines]
    cases i <;> rfl
  · rintro val ext rtr rfl
    obtain ⟨⟨-, -, -, word⟩, olen, least, most⟩ := (defines_iff_of_buffer rfl).1 defines
    have four : (portResponse (.idenc val ext rtr)).obuf.length = 4 := Nat.le_antisymm most least
    obtain ⟨w, hw⟩ := Option.isSome_iff_exists.1 word
    rw [four] at olen
    refine ⟨by rw [Response.read, olen]; rfl, ?_⟩
    rcases ((wordsClear_iff.1 clear).1 w hw).2 with no_buffer | bytes
    · rw [olen] at no_buffer
      cases no_buffer
    · rw [hw, bytes]

/-- Settles O36, status by status: ERR is always the code of one of the three. -/
theorem errorCodesAreThoseOfTheTable : Obligations.ErrorCodesAreThoseOfTheTable := by
  have status (e : ErrStatus) : statusOfCode e.code = .ok e ∧ e.code.toNat < 3 := by cases e <;> decide
  refine ⟨rfl, rfl, rfl, fun e => (status e).1, rfl, fun i s => ?_⟩
  exact ⟨portResponse i, _, exec_eq_respond i s, rfl, (status _).2⟩

end Sys2Proof.Machine

namespace Sys2Proof.Machine

/-! ## The fields of a response, bit by bit -/

theorem mem_all_fields (f : Field) : f ∈ Field.all := by
  cases f <;> simp [Field.all]

/-- No bit belongs to two fields (spec/30_encoding.md R67). -/
theorem fields_disjoint (f g : Field) : f = g ∨ f.lo + f.width ≤ g.lo ∨ g.lo + g.width ≤ f.lo := by
  have all : ∀ f ∈ Field.all, ∀ g ∈ Field.all, f = g ∨ f.lo + f.width ≤ g.lo ∨ g.lo + g.width ≤ f.lo := by decide
  exact all f (mem_all_fields f) g (mem_all_fields g)

theorem field_end_le (f : Field) : f.lo + f.width ≤ 165 := by
  have all : ∀ f ∈ Field.all, f.lo + f.width ≤ 165 := by decide
  exact all f (mem_all_fields f)

/-- Bit `j` of a field stands `j` above the field's lowest bit. -/
theorem bit_lo_add (r : Response) (f : Field) {j : Nat} (h : j < f.width) :
    r.bit (f.lo + j) = (r.read f).map (·.testBit j) := by
  have found : Field.all.find? (fun g => decide (g.lo ≤ f.lo + j) && decide (f.lo + j < g.lo + g.width)) = some f := by
    cases hg : Field.all.find? (fun g => decide (g.lo ≤ f.lo + j) && decide (f.lo + j < g.lo + g.width)) with
    | none =>
      have := List.find?_eq_none.1 hg f (mem_all_fields f)
      simp [h] at this
    | some g =>
      have inside := List.find?_some hg
      simp only [Bool.and_eq_true, decide_eq_true_eq] at inside
      rcases fields_disjoint g f with rfl | apart | apart
      · rfl
      · omega
      · omega
  rw [Response.bit, found]
  simp

theorem bit_of_ge (r : Response) {n : Nat} (h : 165 ≤ n) : r.bit n = none := by
  have outside : Field.all.find? (fun g => decide (g.lo ≤ n) && decide (n < g.lo + g.width)) = none := by
    refine List.find?_eq_none.2 fun g _ => ?_
    have := field_end_le g
    simp only [Bool.and_eq_true, decide_eq_true_eq]
    omega
  rw [Response.bit, outside]

/-- A bit of the number a field holds is a bit of the vector it holds. -/
theorem map_testBit_map_toNat {w : Nat} (v : Option (BitVec w)) (j : Nat) :
    (v.map BitVec.toNat).map (·.testBit j) = v.map (·.getLsbD j) := by
  rw [Option.map_map]
  rfl

theorem map_testBit_map_boolToNat (b : Option Bool) : (b.map Bool.toNat).map (·.testBit 0) = b := by
  rcases b with _ | _ | _ <;> rfl

/-- Settles O37, field by field. -/
theorem responseFieldsStandAtTheirBits : Obligations.ResponseFieldsStandAtTheirBits := by
  intro r
  refine ⟨fun j h => ?_, fun j h => ?_, ?_, ?_, fun j h => ?_, fun j h => ?_, fun k j hk h => ?_, fun n => bit_of_ge r⟩
  · exact (congrArg r.bit (Nat.zero_add j)).symm.trans (bit_lo_add r .err h)
  · exact (bit_lo_add r .oval h).trans (map_testBit_map_toNat ..)
  · exact (bit_lo_add r .oext Nat.one_pos).trans (map_testBit_map_boolToNat _)
  · exact (bit_lo_add r .ortr Nat.one_pos).trans (map_testBit_map_boolToNat _)
  · exact (bit_lo_add r .oword h).trans (map_testBit_map_toNat ..)
  · exact (bit_lo_add r .olen h).trans (map_testBit_map_toNat ..)
  · exact (bit_lo_add r (.obuf ⟨k, hk⟩) h).trans (map_testBit_map_toNat ..)

/-! ## The bits of the identifier's bytes -/

theorem idencWord_getLsbD (id : Identifier) (i : Nat) :
    (idencWord id).getLsbD i =
      (id.value.getLsbD i || (decide (i = 29) && id.extended) || (decide (i = 30) && id.remote)) := by
  rw [idencWord, packWord_getLsbD, BitVec.testBit_toNat]
  by_cases h : i < 29
  · simp [h]
  · simp [h, id.value.getLsbD_of_ge i (by omega)]

/-- Below bit 29 the word is the value. -/
theorem idencWord_getLsbD_of_lt (id : Identifier) {i : Nat} (h : i < 29) :
    (idencWord id).getLsbD i = id.value.getLsbD i := by
  have no_flag : i ≠ 29 ∧ i ≠ 30 := by omega
  simp [idencWord_getLsbD, no_flag]

theorem unpackWord_value_getLsbD_of_lt (w : Word) {i : Nat} (h : i < 29) :
    (unpackWord w).value.getLsbD i = w.getLsbD i := by
  rw [unpackWord_value_getLsbD, decide_eq_true h, Bool.true_and]

/-- Identifiers with the same fields are the same (spec/10_state.md R31). -/
theorem identifier_eq {x y : Identifier} (value : x.value = y.value) (extended : x.extended = y.extended)
    (remote : x.remote = y.remote) : x = y := by
  cases x
  cases y
  exact Identifier.mk.injEq .. ▸ ⟨value, extended, remote⟩

/-- Unpacking reads bits 30..0 alone (spec/30_encoding.md R61, R62). -/
theorem unpackWord_congr {w w' : Word} (h : ∀ i, i < 31 → w.getLsbD i = w'.getLsbD i) :
    unpackWord w = unpackWord w' := by
  refine identifier_eq (BitVec.eq_of_getLsbD_eq fun i hi => ?_) ?_ ?_
  · rw [unpackWord_value_getLsbD_of_lt _ hi, unpackWord_value_getLsbD_of_lt _ hi, h i (by omega)]
  · rw [unpackWord_extended, unpackWord_extended, h 29 (by decide)]
  · rw [unpackWord_remote, unpackWord_remote, h 30 (by decide)]

/-- Settles O13: the bytes are the word's, bit for bit, and so are the fields. -/
theorem identifierBitsStandAtTheirBytes : Obligations.IdentifierBitsStandAtTheirBytes := by
  constructor
  · intro id
    have byte (lo j : Nat) (hj : j < 8) :
        ((idencWord id).extractLsb' lo 8).getLsbD j = (idencWord id).getLsbD (lo + j) := by
      simp [hj]
    refine ⟨_, _, _, _, rfl, fun j h => ?_, fun j h => ?_, fun j h => ?_, fun j h => ?_, ?_, ?_, ?_⟩
    · rw [byte _ _ h, idencWord_getLsbD_of_lt _ (by omega), Nat.zero_add]
    · rw [byte _ _ h, idencWord_getLsbD_of_lt _ (by omega)]
    · rw [byte _ _ h, idencWord_getLsbD_of_lt _ (by omega)]
    · rw [byte _ _ (by omega), idencWord_getLsbD_of_lt _ (by omega)]
    all_goals
      rw [byte _ _ (by decide), idencWord_getLsbD, id.value.getLsbD_of_ge _ (by decide)]
      simp
  · intro b0 b1 b2 b3
    refine ⟨_, rfl, fun j h => ?_, fun j h => ?_, fun j h => ?_, fun j h => ?_, ?_, ?_⟩
    · rw [unpackWord_value_getLsbD_of_lt _ (by omega), le32_getLsbD, if_pos h]
    · rw [unpackWord_value_getLsbD_of_lt _ (by omega), le32_getLsbD, if_neg (by omega), if_pos (by omega),
        Nat.add_sub_cancel_left]
    · rw [unpackWord_value_getLsbD_of_lt _ (by omega), le32_getLsbD, if_neg (by omega), if_neg (by omega),
        if_pos (by omega), Nat.add_sub_cancel_left]
    · rw [unpackWord_value_getLsbD_of_lt _ (by omega), le32_getLsbD, if_neg (by omega), if_neg (by omega),
        if_neg (by omega), Nat.add_sub_cancel_left]
    · exact (unpackWord_extended _).trans (le32_getLsbD b0 b1 b2 b3 29)
    · exact (unpackWord_remote _).trans (le32_getLsbD b0 b1 b2 b3 30)

/-! ## Bit 31 -/

/-- Inverting bit 7 of byte 3 inverts bit 31 of the word and leaves the rest. -/
theorem le32_getLsbD_xor_of_lt (b0 b1 b2 b3 : Byte) {i : Nat} (h : i < 31) :
    (le32 b0 b1 b2 (b3 ^^^ 0x80#8)).getLsbD i = (le32 b0 b1 b2 b3).getLsbD i := by
  have top : 0x80#8 = BitVec.twoPow 8 7 := by decide
  have below (j : Nat) (hj : j < 7) : (b3 ^^^ 0x80#8).getLsbD j = b3.getLsbD j := by
    simp [top, BitVec.getLsbD_twoPow, show 7 ≠ j by omega]
  rw [le32_getLsbD, le32_getLsbD, below (i - 24) (by omega)]

/-- IDDEC ignores bit 31 of the word it receives (spec/30_encoding.md R62). -/
theorem iddec_xor (b0 b1 b2 b3 : Byte) : iddec [b0, b1, b2, b3 ^^^ 0x80#8] = iddec [b0, b1, b2, b3] :=
  congrArg Result.ok (unpackWord_congr fun _ h => le32_getLsbD_xor_of_lt b0 b1 b2 b3 h)

/-- Settles O14: what is sent is legal, which includes the clear bit; what is received is decoded by IDDEC, which does
not read it. -/
theorem bitThirtyOneIsNeverProducedAndIsIgnored : Obligations.BitThirtyOneIsNeverProducedAndIsIgnored := by
  refine ⟨fun i s => ?_, fun b0 b1 b2 b3 => ?_, fun b0 b1 b2 b3 d hd => ?_⟩
  · have legal := portResponse_legalFor i
    refine ⟨portResponse i, exec_eq_respond i s, fun w => oword_getLsbD_31_of_legalFor legal, ?_, ?_⟩
    · rintro val ext rtr rfl b
      exact obuf_three_getLsbD_of_legalFor legal rfl
    · rintro val ext rtr buf rfl b
      exact obuf_three_getLsbD_of_legalFor legal rfl
  · exact ⟨_, rfl, iddec_xor b0 b1 b2 b3⟩
  · exact ⟨⟨_, d, hd⟩, frdec_eq_ok_iff.2 ⟨rfl, rfl⟩, frdec_eq_ok_iff.2 ⟨iddec_xor b0 b1 b2 b3, rfl⟩⟩

/-! ## The packing formula -/

/-- The packed word is the number of the packing formula (spec/30_encoding.md R61). -/
theorem packWord_toNat (v : Nat) (e r : Bool) : (packWord v e r).toNat = Formula.word v e r := by
  have value : (v &&& 0x1FFFFFFF) % 2 ^ 32 = v &&& 0x1FFFFFFF :=
    Nat.mod_eq_of_lt (Nat.lt_of_le_of_lt Nat.and_le_right (by decide))
  have extended : (extendedBits e).toNat = if e then 0x20000000 else 0 := by cases e <;> rfl
  have remote : (remoteBits r).toNat = if r then 0x40000000 else 0 := by cases r <;> rfl
  rw [packWord, BitVec.toNat_or, BitVec.toNat_or, BitVec.toNat_ofNat, value, extended, remote, Formula.word]

/-- Unpacking reads the fields that the formula names. -/
theorem unpackWord_fields (w : Word) : Formula.fields w.toNat (unpackWord w) := by
  have flag (m : Word) : (w &&& m != 0#32) = true ↔ w.toNat &&& m.toNat ≠ 0 := by
    rw [bne_iff_ne, ne_eq, ← BitVec.toNat_inj, BitVec.toNat_and]
    rfl
  refine ⟨?_, flag Config.canIdExtended, flag Config.canIdRemote⟩
  rw [unpackWord_value_toNat]
  exact (and_canIdMask w.toNat).symm

/-- Packing gives back the word whose fields were read, if bit 31 was clear. -/
theorem packWord_unpackWord {w : Word} (h : w.getLsbD 31 = false) :
    packWord (unpackWord w).value.toNat (unpackWord w).extended (unpackWord w).remote = w := by
  refine BitVec.eq_of_getLsbD_eq fun i hi => ?_
  have word := idencWord_getLsbD (unpackWord w) i
  rw [unpackWord_value_getLsbD, unpackWord_extended, unpackWord_remote] at word
  refine word.trans ?_
  obtain value | rfl | rfl | rfl : i < 29 ∨ i = 29 ∨ i = 30 ∨ i = 31 := by omega
  · have no_flag : i ≠ 29 ∧ i ≠ 30 := by omega
    simp [value, no_flag]
  · simp
  · simp
  · simpa using h.symm

/-- Settles O17: packing and unpacking undo each other, and are the spec's formulas. -/
theorem identifiersAreTheWordsWithBitThirtyOneClear : Obligations.IdentifiersAreTheWordsWithBitThirtyOneClear :=
  ⟨fun w h => ⟨unpackWord w, rfl, unpackWord_fields w, packWord_unpackWord h⟩,
    fun id => ⟨idencWord id, rfl, packWord_toNat .., unpackWord_idencWord id⟩⟩

/-! ## IDNEW's range check -/

theorem not_legalValue_iff (v : Nat) (e : Bool) : ¬ legalValue v e = true ↔ Formula.outOfRange v e := by
  rw [legalValue_iff, Formula.outOfRange]
  cases e <;> simp

theorem idnew_of_outOfRange {v : Nat} {e : Bool} (r : Bool) (h : Formula.outOfRange v e) :
    idnew v e r = .rangeError := by
  rw [idnew, dif_neg ((not_legalValue_iff v e).2 h)]

/-- A value in range is kept whole, with both flags (spec/40_identifier.md R80). -/
theorem idnew_of_inRange {v : Nat} {e : Bool} (r : Bool) (h : ¬ Formula.outOfRange v e) :
    ∃ x, idnew v e r = .ok x ∧ x.id.value.toNat = v ∧ x.id.extended = e ∧ x.id.remote = r := by
  have legal : legalValue v e = true := not_not.1 fun illegal => h ((not_legalValue_iff v e).1 illegal)
  refine ⟨_, dif_pos legal, ?_, rfl, rfl⟩
  have fits : v < 2 ^ 29 := by
    rcases (legalValue_iff v e).1 legal with ⟨-, le⟩ | ⟨-, le⟩ <;> omega
  exact Nat.mod_eq_of_lt fits

/-- A value with more than 29 bits is out of range in both modes. -/
theorem outOfRange_of_gt {v : Nat} (e : Bool) (h : v > 0x1FFFFFFF) : Formula.outOfRange v e := by
  cases e
  · exact .inl ⟨rfl, by omega⟩
  · exact .inr ⟨rfl, h⟩

/-! ## Operands -/

/-- Masking with bits 28..0 is taking the number modulo 2^29. -/
theorem and_valueMask_toNat (val : BitVec 32) : (val &&& 0x1FFFFFFF#32).toNat = val.toNat % 2 ^ 29 := by
  rw [BitVec.toNat_and]
  exact and_canIdMask val.toNat

/-- An identifier operand has the low 29 bits of VAL (spec/30_encoding.md R70). -/
theorem identifierOperand_and (val : BitVec 32) (ext rtr : Bool) :
    identifierOperand (val &&& 0x1FFFFFFF#32) ext rtr = identifierOperand val ext rtr := by
  refine identifier_eq (BitVec.eq_of_toNat_eq ?_) rfl rfl
  rw [identifierOperand_value, identifierOperand_value, and_valueMask_toNat, Nat.mod_mod]

/-- Settles O31: the identifier operand and the packing formula see VAL modulo 2^29; IDNEW's range check sees it whole,
and a value that masking changes is above every range. -/
theorem highValueBitsAreDiscardedExceptByIdnew : Obligations.HighValueBitsAreDiscardedExceptByIdnew := by
  intro val ext rtr buf s
  refine ⟨?_, ?_, ?_, ?_, fun high => ?_⟩
  · simp only [exec_eq_respond, portResponse, identifierOperand_and]
  · simp only [exec_eq_respond, portResponse, valueOperand, mask, and_valueMask_toNat, packWord_mod]
  · simp only [exec_eq_respond, portResponse, identifierOperand_and]
  · simp only [exec_eq_respond, portResponse, identifierOperand_and]
  · have out : Formula.outOfRange val.toNat ext := by
      refine outOfRange_of_gt ext (Nat.lt_of_not_le fun low => high (BitVec.eq_of_toNat_eq ?_))
      rw [and_valueMask_toNat, Nat.mod_eq_of_lt (by omega)]
    rw [exec_eq_respond, portResponse, valueOperand, idnew_of_outOfRange rtr out, respondWith]

end Sys2Proof.Machine

namespace Sys2Proof.Machine

/-! ## Presenting an operation-level request at the port -/

theorem frdec_of_length_gt {b : List Byte} (h : b.length > 12) : frdec b = .lengthError := by
  have long : b.length - Config.idWordBytes > Config.maxPayload := Nat.lt_sub_of_add_lt h
  rw [frdec, if_pos long, ite_self]

theorem presentBuffer_inlen (b : List Byte) : (presentBuffer b).inlen.toNat = min b.length 255 := by
  simp [presentBuffer]

/-- A presented buffer carries what its length says (spec/30_encoding.md R65). -/
theorem presentBuffer_wellFormed (b : List Byte) : (presentBuffer b).wellFormed = true := by
  have carried : (presentBuffer b).bytes.length = min 12 b.length := List.length_take ..
  rw [InBuf.wellFormed, presentBuffer_inlen, carried, beq_iff_eq, Config.inbufCap]
  omega

/-- A presented buffer is the operand itself, for an operation that takes at most 12 bytes: a longer one is not carried
whole and gets the LengthError it would get anyway (spec/30_encoding.md R65). -/
theorem onBuffer_presentBuffer {α : Type} {op : List Byte → Result α} (b : List Byte)
    (long : b.length > 12 → op b = .lengthError) : onBuffer (presentBuffer b) op = op b := by
  rw [onBuffer_eq _ _ (presentBuffer_wellFormed b), presentBuffer_inlen]
  by_cases h : b.length ≤ 12
  · rw [if_pos (by omega)]
    exact congrArg op (List.take_of_length_le h)
  · rw [if_neg (by omega), long (by omega)]

/-- IDNEW's value saturates at the port, where the range check sees no difference (spec/30_encoding.md R70). -/
theorem idnew_presentIdnewValue (v : Nat) (e r : Bool) : idnew (presentIdnewValue v).toNat e r = idnew v e r := by
  by_cases h : v < 2 ^ 32
  · rw [presentIdnewValue, if_pos h, BitVec.toNat_ofNat, Nat.mod_eq_of_lt h]
  · rw [presentIdnewValue, if_neg h, idnew_of_outOfRange r (outOfRange_of_gt e (by decide)),
      idnew_of_outOfRange r (outOfRange_of_gt e (by omega))]

/-- MASK reads the low 29 bits of its value, which the port carries (spec/30_encoding.md R70). -/
theorem mask_presentMaskValue (v : Nat) (e r : Bool) : mask (presentMaskValue v).toNat e r = mask v e r := by
  rw [mask, mask, presentMaskValue, BitVec.toNat_ofNat, ← packWord_mod (v % 2 ^ 32), Nat.mod_mod_of_dvd v (by decide),
    packWord_mod]

/-- An identifier's value, widened to VAL, is read back whole. -/
theorem identifierOperand_setWidth (id : Identifier) :
    identifierOperand (id.value.setWidth 32) id.extended id.remote = id := by
  refine identifier_eq (BitVec.eq_of_toNat_eq ?_) rfl rfl
  have fits := id.value.isLt
  rw [identifierOperand_value, BitVec.toNat_setWidth, Nat.mod_mod_of_dvd _ (by decide), Nat.mod_eq_of_lt fits]

theorem respondWith_map {α β : Type} (define : β → Response → Response) (f : α → β) (res : Result α) :
    respondWith define (res.map f) = respondWith (fun a => define (f a)) res := by
  cases res <;> rfl

theorem present_wellFormed (q : OpRequest) : q.present.wellFormed = true := by
  cases q with
  | idnew | idenc | mask => rfl
  | iddec b | frdec b => exact presentBuffer_wellFormed b
  | frnew id d => exact presentBuffer_wellFormed d
  | frenc f => exact presentBuffer_wellFormed f.data

/-- The port's response to a presented request carries the operation level's answer (spec/30_encoding.md R78). -/
theorem portResponse_present (q : OpRequest) : portResponse q.present = respondWith OpValue.define q.answer := by
  cases q with
  | idnew v e r =>
    rw [OpRequest.present, portResponse, valueOperand, idnew_presentIdnewValue, OpRequest.answer, respondWith_map]
    rfl
  | idenc id =>
    rw [OpRequest.present, portResponse, identifierOperand_setWidth]
    rfl
  | iddec b =>
    rw [OpRequest.present, portResponse, onBuffer_presentBuffer b fun long => iddec_of_length_ne b (by omega),
      OpRequest.answer, respondWith_map]
    rfl
  | mask v e r =>
    rw [OpRequest.present, portResponse, valueOperand, mask_presentMaskValue]
    rfl
  | frnew id d =>
    rw [OpRequest.present, portResponse, identifierOperand_setWidth,
      onBuffer_presentBuffer d fun long => frnew_of_length_gt (by omega), OpRequest.answer, respondWith_map]
    rfl
  | frenc f =>
    rw [OpRequest.present, portResponse, identifierOperand_setWidth,
      onBuffer_presentBuffer f.data fun long => frnew_of_length_gt (by omega), frnew_eq_ok_iff.2 ⟨rfl, rfl⟩]
    rfl
  | frdec b =>
    rw [OpRequest.present, portResponse, onBuffer_presentBuffer b frdec_of_length_gt, OpRequest.answer, respondWith_map]
    rfl

/-- Settles O38, operation by operation in `portResponse_present`. -/
theorem portAndOperationLevelsGiveTheSameResponse : Obligations.PortAndOperationLevelsGiveTheSameResponse :=
  fun q s => ⟨present_wellFormed q, by rw [exec_eq_respond, portResponse_present]⟩

/-! ## The pseudo-operations -/

theorem frnew_of_length_le (id : Identifier) {d : List Byte} (h : d.length ≤ 8) : frnew id d = .ok ⟨id, d, h⟩ :=
  frnew_eq_ok_iff.2 ⟨rfl, rfl⟩

/-- The bytes of a word are the formula's of its number (spec/00_scope.md R14). -/
theorem bytesLe32_eq_formula (w : Word) : bytesLe32 w = Formula.bytes w.toNat := by
  rw [bytesLe32, Formula.bytes]
  rfl

/-- IDENC's bytes by the packing formula (spec/40_identifier.md R83). -/
theorem idenc_eq_formula (id : Identifier) :
    idenc id = Formula.bytes (Formula.word id.value.toNat id.extended id.remote) := by
  rw [idenc, bytesLe32_eq_formula, idencWord, packWord_toNat]

/-- Settles O39, by whether the value is in range and the payload fits. -/
theorem pseudoOperationsExpand : Obligations.PseudoOperationsExpand := by
  refine ⟨fun v e r out => ?_, fun v e r inside => ?_, fun v e r d out => ?_, fun v e r d inside long => ?_,
    fun v e r d inside short => ?_, rfl⟩
  · rw [idword, idnew_of_outOfRange r out, Result.map]
  · obtain ⟨x, hx, rfl, rfl, rfl⟩ := idnew_of_inRange r inside
    rw [idword, hx, Result.map, idenc_eq_formula]
  · rw [frameBytes, idnew_of_outOfRange r out, Result.bind]
  · obtain ⟨x, hx, -⟩ := idnew_of_inRange r inside
    rw [frameBytes, hx, Result.bind, frnew_of_length_gt long, Result.map]
  · obtain ⟨x, hx, rfl, rfl, rfl⟩ := idnew_of_inRange r inside
    rw [frameBytes, hx, Result.bind, frnew_of_length_le x.id short, Result.map, frenc, idenc_eq_formula]

end Sys2Proof.Machine

namespace Sys2Proof.Machine

/-! ## Running a request line -/

/-- From `s` to `t` the block answered the first `k` requests in progress, for some `k`, and `own` further ones; the
response it gave last is `last`. -/
def Served (s t : State) (own : Nat) (last : Response) : Prop :=
  ∃ k, k ≤ s.requests.length ∧ t.requests = s.requests.drop k ∧
    t.responses.length = s.responses.length + k + own ∧ t.responses.getLast?.map Delivery.response = some last

/-- All of the requests select an operation (spec/30_encoding.md R71). -/
def NoneReserved (rs : List Request) : Prop := ∀ q, q ∈ rs → q.bundle.extractLsb' 0 3 ≠ 0b111#3

theorem served_trans {s t u : State} {m n : Nat} {r r' : Response} (h : Served s t m r) (h' : Served t u n r') :
    Served s u (m + n) r' := by
  obtain ⟨k, hk, rest, count, -⟩ := h
  obtain ⟨k', hk', rest', count', last⟩ := h'
  rw [rest, List.length_drop] at hk'
  exact ⟨k + k', by omega, by rw [rest', rest, List.drop_drop], by omega, last⟩

/-- What is left in progress was in progress. -/
theorem noneReserved_of_served {s t : State} {n : Nat} {r : Response} (h : Served s t n r)
    (hs : NoneReserved s.requests) :
    NoneReserved t.requests := by
  obtain ⟨k, -, rest, -⟩ := h
  intro q hq
  rw [rest] at hq
  exact hs q (List.mem_of_mem_drop hq)

theorem not_reserved_of_decode {b : ReqBundle} {i : Instr} (h : decode b = .ok i) : b.extractLsb' 0 3 ≠ 0b111#3 := by
  intro reserved
  rw [decode_reserved reserved] at h
  cases h

/-- As many steps as there are requests in front deliver their responses and leave the others in progress. -/
theorem runSteps_length_append (front rest : List Request) (ds : List Delivery)
    (h : NoneReserved front) :
    runSteps front.length { requests := front ++ rest, responses := ds } =
      .next { requests := rest, responses := ds ++ front.map Request.delivery } := by
  induction front generalizing ds with
  | nil => simp [runSteps]
  | cons q front ih =>
    obtain ⟨i, hd⟩ := decode_ok_of_not_reserved (h q List.mem_cons_self)
    rw [List.length_cons, List.cons_append, runSteps_succ_of_step (step_delivers rfl hd),
      ih _ fun p hp => h p (List.mem_cons_of_mem _ hp)]
    simp

/-- A line that uses a name without a value is not issued (spec/30_encoding.md R76; log 17). -/
theorem runLine_of_no_instr (who place : Nat) {l : Line} {env : Env} {s : State} (h : l.call.instr env = none) :
    runLine who place l env s = .next (l.nameResult none env, s) := by
  simp [runLine, h]

/-- An issued request is answered in the step after those it was placed behind. -/
theorem runSteps_issue {q : Request} {i : Instr} {s : State} (place : Nat) (hd : decode q.bundle = .ok i)
    (hs : NoneReserved s.requests) :
    ∃ t, runSteps (issuePlace place q.requester s.requests + 1) (issue place q s) = .next t ∧
      Served s t 1 (portResponse i) := by
  have hk := issuePlace_le place q.requester s.requests
  have issued : issue place q s =
      { requests := (s.requests.take (issuePlace place q.requester s.requests) ++ [q]) ++
          s.requests.drop (issuePlace place q.requester s.requests)
        responses := s.responses } := by
    simp [issue]
  rw [issued]
  generalize issuePlace place q.requester s.requests = k at *
  have front_length : (s.requests.take k ++ [q]).length = k + 1 := by
    rw [List.length_append, List.length_take_of_le hk, List.length_singleton]
  have front_answered : NoneReserved (s.requests.take k ++ [q]) := by
    intro p hp
    rcases List.mem_append.1 hp with front | own
    · exact hs p (List.mem_of_mem_take front)
    · obtain rfl := List.mem_singleton.1 own
      exact not_reserved_of_decode hd
  rw [← front_length, runSteps_length_append _ _ _ front_answered]
  refine ⟨_, rfl, k, hk, rfl, ?_, ?_⟩
  · rw [List.length_append, List.length_map, front_length, Nat.add_assoc]
  · simp [delivery_of_decode hd]

/-- A line's request is answered, and the requester names its result. -/
theorem runLine_of_instr {who place : Nat} {l : Line} {env : Env} {s : State} {i : Instr}
    (hi : l.call.instr env = some i) (wf : i.wellFormed = true)
    (hs : NoneReserved s.requests) :
    ∃ t, runLine who place l env s = .next (l.nameResult (namedResult i (portResponse i)) env, t) ∧
      Served s t 1 (portResponse i) := by
  obtain ⟨t, run, served⟩ := runSteps_issue (q := { requester := who, bundle := encode i }) place (decode_encode wf) hs
  refine ⟨t, ?_, served⟩
  obtain ⟨-, -, -, -, last⟩ := served
  obtain ⟨d, hd, response⟩ := Option.map_eq_some_iff.1 last
  simp [runLine, hi, run, hd, response]

/-! ## Lines that present an operation-level request -/

/-- What a requester keeps of an operation-level result. -/
def OpValue.named : OpValue → Named
  | .validIdentifier v => .identifier v.id
  | .identifier id => .identifier id
  | .idBytes b => .bytes b
  | .word w => .word w
  | .frame f => .frame f.id f.data
  | .buffer b => .bytes b

/-- What stands under the name of a line: its request's result, and nothing on an error. -/
def Result.named : Result OpValue → Option Named
  | .ok a => some a.named
  | .rangeError => none
  | .lengthError => none

/-- The requester reads from the response the operation level's result (spec/30_encoding.md R69, R78). -/
theorem namedResult_present (q : OpRequest) : namedResult q.present (portResponse q.present) = q.answer.named := by
  rw [portResponse_present]
  cases q with
  | idnew v e r => rw [OpRequest.answer]; cases idnew v e r <;> rfl
  | idenc id => rfl
  | iddec b => rw [OpRequest.answer]; cases iddec b <;> rfl
  | mask v e r => rfl
  | frnew id d => rw [OpRequest.answer]; cases frnew id d <;> rfl
  | frenc f => rfl
  | frdec b => rw [OpRequest.answer]; cases frdec b <;> rfl

/-- A line that presents an operation-level request gives the answer the operation level gives. -/
theorem runLine_of_present (who place : Nat) {l : Line} {env : Env} {s : State} {q : OpRequest}
    (hi : l.call.instr env = some q.present) (hs : NoneReserved s.requests) :
    ∃ t, runLine who place l env s = .next (l.nameResult q.answer.named env, t) ∧
      Served s t 1 (respondWith OpValue.define q.answer) := by
  rw [← namedResult_present, ← portResponse_present]
  exact runLine_of_instr hi (present_wellFormed q) hs

/-- A line that runs leads on to the lines behind it. -/
theorem runProgram_cons {who place : Nat} {l : Line} {rest : List (Nat × Line)} {env env' : Env} {s s' : State}
    {outcome : Host.Outcome (Env × State) Fault Refusal} (h : runLine who place l env s = .next (env', s'))
    (hrest : runProgram who rest env' s' = outcome) : runProgram who ((place, l) :: rest) env s = outcome := by
  simp [runProgram, h, hrest]

section Names
variable {env : Env} {t f : String}

@[simp] theorem lookup_cons_self (n : String) (v : Option Named) : Env.lookup? ((n, v) :: env) n = v := by
  simp [Env.lookup?]

theorem instr_idenc_of_lookup {id : Identifier} (h : env.lookup? t = some (.identifier id)) :
    (Call.idenc (.name t)).instr env = some (OpRequest.idenc id).present := by
  simp [Call.instr, IdArg.resolve, h, OpRequest.present]

theorem instr_idenc_of_no_value (h : env.lookup? t = none) : (Call.idenc (.name t)).instr env = none := by
  simp [Call.instr, IdArg.resolve, h]

theorem instr_frnew_of_lookup {id : Identifier} (h : env.lookup? t = some (.identifier id)) (d : List Byte) :
    (Call.frnew (.parts (.name t) (.bytes d))).instr env = some (OpRequest.frnew id d).present := by
  simp [Call.instr, FrameArg.resolve, IdArg.resolve, BytesArg.resolve, h, OpRequest.present]

theorem instr_frnew_of_no_value (h : env.lookup? t = none) (d : List Byte) :
    (Call.frnew (.parts (.name t) (.bytes d))).instr env = none := by
  simp [Call.instr, FrameArg.resolve, IdArg.resolve, h]

theorem instr_frenc_of_lookup {fr : Frame} (h : env.lookup? f = some (.frame fr.id fr.data)) :
    (Call.frenc (.name f)).instr env = some (OpRequest.frenc fr).present := by
  simp [Call.instr, FrameArg.resolve, h, OpRequest.present]

theorem instr_frenc_of_no_value (h : env.lookup? f = none) : (Call.frenc (.name f)).instr env = none := by
  simp [Call.instr, FrameArg.resolve, h]

end Names

/-! ## The lines of IDWORD and FRAME

Each line's call names what the line before it gave, so where that gave an error the line is not issued. -/

section Lines
variable {v : Nat} {e r : Bool} {d : List Byte} {s : State} (who p1 p2 p3 : Nat) (t f out : String) (env : Env)

/-- Both begin with IDNEW, whose line gives its result the name `t`. -/
theorem runLine_idnew (place : Nat) (hs : NoneReserved s.requests) {res : Result ValidIdentifier}
    (hx : idnew v e r = res) :
    ∃ s', runLine who place ⟨.idnew (.parts v e r), some t⟩ env s =
        .next ((t, (res.map .validIdentifier).named) :: env, s') ∧
      Served s s' 1 (respondWith OpValue.define (res.map .validIdentifier)) := by
  subst hx
  exact runLine_of_present who place (q := .idnew v e r) rfl hs

/-- FRAME's second line, where the name `t` stands for an identifier. -/
theorem runLine_frnew (place : Nat) (hs : NoneReserved s.requests) {id : Identifier}
    (ht : env.lookup? t = some (.identifier id)) {res : Result Frame} (hf : frnew id d = res) :
    ∃ s', runLine who place ⟨.frnew (.parts (.name t) (.bytes d)), some f⟩ env s =
        .next ((f, (res.map .frame).named) :: env, s') ∧
      Served s s' 1 (respondWith OpValue.define (res.map .frame)) := by
  subst hf
  exact runLine_of_present who place (q := .frnew id d) (instr_frnew_of_lookup ht d) hs

theorem runProgram_idwordLines_of_ok (hs : NoneReserved s.requests) {x : ValidIdentifier} (hx : idnew v e r = .ok x) :
    ∃ env' s' last, runProgram who (List.zip [p1, p2] (idwordLines v e r t out)) env s = .next (env', s') ∧
      env'.lookup? out = some (.bytes (idenc x.id)) ∧ Served s s' 2 last := by
  obtain ⟨s1, run1, served1⟩ := runLine_idnew who t env p1 hs hx
  obtain ⟨s2, run2, served2⟩ := runLine_of_present who p2 (l := ⟨.idenc (.name t), some out⟩)
    (instr_idenc_of_lookup (lookup_cons_self t _)) (noneReserved_of_served served1 hs)
  exact ⟨_, s2, _, runProgram_cons run1 (runProgram_cons run2 rfl), lookup_cons_self out _,
    served_trans served1 served2⟩

theorem runProgram_idwordLines_of_rangeError (hs : NoneReserved s.requests) (hx : idnew v e r = .rangeError) :
    ∃ env' s', runProgram who (List.zip [p1, p2] (idwordLines v e r t out)) env s = .next (env', s') ∧
      env'.lookup? out = none ∧ Served s s' 1 (errorResponse .range) := by
  obtain ⟨s1, run1, served1⟩ := runLine_idnew who t env p1 hs hx
  have run2 := runLine_of_no_instr who p2 (l := ⟨.idenc (.name t), some out⟩) (s := s1) (env := (t, none) :: env)
    (instr_idenc_of_no_value (lookup_cons_self t none))
  exact ⟨_, s1, runProgram_cons run1 (runProgram_cons run2 rfl), lookup_cons_self out _, served1⟩

theorem runProgram_frameLines_of_ok (hs : NoneReserved s.requests) {x : ValidIdentifier} (hx : idnew v e r = .ok x)
    {fr : Frame} (hf : frnew x.id d = .ok fr) :
    ∃ env' s' last, runProgram who (List.zip [p1, p2, p3] (frameLines v e r d t f out)) env s = .next (env', s') ∧
      env'.lookup? out = some (.bytes (frenc fr)) ∧ Served s s' 3 last := by
  obtain ⟨s1, run1, served1⟩ := runLine_idnew who t env p1 hs hx
  obtain ⟨s2, run2, served2⟩ := runLine_frnew who t f _ p2 (noneReserved_of_served served1 hs) (lookup_cons_self t _) hf
  have served12 := served_trans served1 served2
  obtain ⟨s3, run3, served3⟩ := runLine_of_present who p3 (l := ⟨.frenc (.name f), some out⟩)
    (instr_frenc_of_lookup (lookup_cons_self f _)) (noneReserved_of_served served12 hs)
  exact ⟨_, s3, _, runProgram_cons run1 (runProgram_cons run2 (runProgram_cons run3 rfl)), lookup_cons_self out _,
    served_trans served12 served3⟩

theorem runProgram_frameLines_of_lengthError (hs : NoneReserved s.requests) {x : ValidIdentifier}
    (hx : idnew v e r = .ok x) (hf : frnew x.id d = .lengthError) :
    ∃ env' s', runProgram who (List.zip [p1, p2, p3] (frameLines v e r d t f out)) env s = .next (env', s') ∧
      env'.lookup? out = none ∧ Served s s' 2 (errorResponse .length) := by
  obtain ⟨s1, run1, served1⟩ := runLine_idnew who t env p1 hs hx
  obtain ⟨s2, run2, served2⟩ := runLine_frnew who t f _ p2 (noneReserved_of_served served1 hs) (lookup_cons_self t _) hf
  have run3 := runLine_of_no_instr who p3 (l := ⟨.frenc (.name f), some out⟩) (s := s2)
    (env := (f, none) :: (t, some (.identifier x.id)) :: env) (instr_frenc_of_no_value (lookup_cons_self f none))
  exact ⟨_, s2, runProgram_cons run1 (runProgram_cons run2 (runProgram_cons run3 rfl)), lookup_cons_self out _,
    served_trans served1 served2⟩

theorem runProgram_frameLines_of_rangeError (hs : NoneReserved s.requests) (hx : idnew v e r = .rangeError) :
    ∃ env' s', runProgram who (List.zip [p1, p2, p3] (frameLines v e r d t f out)) env s = .next (env', s') ∧
      env'.lookup? out = none ∧ Served s s' 1 (errorResponse .range) := by
  obtain ⟨s1, run1, served1⟩ := runLine_idnew who t env p1 hs hx
  have run2 := runLine_of_no_instr who p2 (l := ⟨.frnew (.parts (.name t) (.bytes d)), some f⟩) (s := s1)
    (env := (t, none) :: env) (instr_frnew_of_no_value (lookup_cons_self t none) d)
  have run3 := runLine_of_no_instr who p3 (l := ⟨.frenc (.name f), some out⟩) (s := s1)
    (env := (f, none) :: (t, none) :: env) (instr_frenc_of_no_value (lookup_cons_self f none))
  exact ⟨_, s1, runProgram_cons run1 (runProgram_cons run2 (runProgram_cons run3 rfl)), lookup_cons_self out _, served1⟩

end Lines

/-- Settles O40: IDNEW gives an identifier or a RangeError, FRNEW a frame or a LengthError, and each of the runs above
gives what the pseudo-operation gives. -/
theorem pseudoOperationLinesRunAsTheyExpand : Obligations.PseudoOperationLinesRunAsTheyExpand := by
  intro who v e r d t f out env s p1 p2 p3 hs
  cases hx : idnew v e r with
  | lengthError => exact absurd hx (idnew_ne_lengthError v e r)
  | rangeError =>
    have word : idword v e r = .rangeError := by rw [idword, hx, Result.map]
    have bytes : frameBytes v e r d = .rangeError := by rw [frameBytes, hx, Result.bind]
    constructor
    · obtain ⟨env', s', run, none, k, hk, rest, count, last⟩ :=
        runProgram_idwordLines_of_rangeError who p1 p2 t out env hs hx
      exact ⟨env', s', k, run, hk, rest, by simp [word], fun _ => ⟨none, count, last⟩⟩
    · obtain ⟨env', s', run, none, k, hk, rest, count, last⟩ :=
        runProgram_frameLines_of_rangeError (d := d) who p1 p2 p3 t f out env hs hx
      exact ⟨env', s', k, run, hk, rest, by simp [bytes], by simp [bytes], fun _ => ⟨none, count, last⟩⟩
  | ok x =>
    have word : idword v e r = .ok (idenc x.id) := by rw [idword, hx, Result.map]
    constructor
    · obtain ⟨env', s', -, run, value, k, hk, rest, count, -⟩ :=
        runProgram_idwordLines_of_ok who p1 p2 t out env hs hx
      refine ⟨env', s', k, run, hk, rest, fun b hb => ?_, fun no => absurd word (no _)⟩
      obtain rfl := Result.ok.inj (word.symm.trans hb)
      exact ⟨value, count⟩
    · cases hf : frnew x.id d with
      | rangeError => exact absurd hf (frnew_ne_rangeError x.id d)
      | lengthError =>
        have bytes : frameBytes v e r d = .lengthError := by rw [frameBytes, hx, Result.bind, hf, Result.map]
        obtain ⟨env', s', run, none, k, hk, rest, count, last⟩ :=
          runProgram_frameLines_of_lengthError who p1 p2 p3 t f out env hs hx hf
        exact ⟨env', s', k, run, hk, rest, by simp [bytes], fun _ => ⟨none, count, last⟩, by simp [bytes]⟩
      | ok fr =>
        have bytes : frameBytes v e r d = .ok (frenc fr) := by rw [frameBytes, hx, Result.bind, hf, Result.map]
        obtain ⟨env', s', -, run, value, k, hk, rest, count, -⟩ :=
          runProgram_frameLines_of_ok who p1 p2 p3 t f out env hs hx hf
        refine ⟨env', s', k, run, hk, rest, fun b hb => ?_, by simp [bytes], by simp [bytes]⟩
        obtain rfl := Result.ok.inj (bytes.symm.trans hb)
        exact ⟨value, count⟩

end Sys2Proof.Machine

/-! # Proofs of the family 40_identifier.md

The layer first: what IDNEW returns, IDENC's word at the port, the word IDDEC reads and the buffer it reads it from,
bit 31. Then the statements. -/

namespace Sys2Proof.Machine

/-! ## IDNEW -/

/-- What IDNEW returns has exactly the operands in its fields (spec/40_identifier.md R81). -/
theorem idnew_fields_of_ok {v : Nat} {e r : Bool} {x : ValidIdentifier} (h : idnew v e r = .ok x) :
    x.id.value.toNat = v ∧ x.id.extended = e ∧ x.id.remote = r := by
  by_cases out : Formula.outOfRange v e
  · rw [idnew_of_outOfRange r out] at h
    cases h
  · obtain ⟨y, hy, fields⟩ := idnew_of_inRange r out
    obtain rfl := Result.ok.inj (hy.symm.trans h)
    exact fields

/-! ## IDENC at the port -/

/-- IDENC's word of an identifier operand is packed from VAL itself: packing discards the same bits 31..29 as the
operand does (spec/30_encoding.md R61, R70). -/
theorem idencWord_identifierOperand (val : BitVec 32) (ext rtr : Bool) :
    idencWord (identifierOperand val ext rtr) = packWord val.toNat ext rtr := by
  rw [idencWord, identifierOperand_value, packWord_mod]
  rfl

/-- A packed word is the word of the formula's number (spec/30_encoding.md R61). -/
theorem packWord_eq_ofNat (v : Nat) (e r : Bool) : packWord v e r = BitVec.ofNat 32 (Formula.word v e r) := by
  rw [← packWord_toNat, BitVec.ofNat_toNat, BitVec.setWidth_eq]

/-- IDENC's bytes are those of its word (spec/40_identifier.md R83, R84). -/
theorem wordOfBytes_idenc (id : Identifier) : wordOfBytes (idenc id) = some (idencWord id) :=
  wordOfBytes_bytesLe32 (idencWord id)

theorem idenc_injective : Function.Injective idenc := fun x y h => by
  have decoded : iddec (idenc x) = iddec (idenc y) := congrArg iddec h
  rw [iddec_idenc, iddec_idenc] at decoded
  exact Result.ok.inj decoded

/-- No value reaches bit 29 of the word: it is the extended flag (spec/30_encoding.md R60). -/
theorem idencWord_getLsbD_29 (id : Identifier) : (idencWord id).getLsbD 29 = id.extended := by
  rw [idencWord_getLsbD, id.value.getLsbD_of_ge 29 (by decide)]
  simp

/-! ## The word IDDEC reads -/

/-- The little-endian word is the formula's number (spec/00_scope.md R14). -/
theorem le32_toNat (b0 b1 b2 b3 : Byte) : (le32 b0 b1 b2 b3).toNat = Formula.le32 b0 b1 b2 b3 := by
  have shifted (b : Byte) (k : Nat) (hk : k ≤ 24) : (b.setWidth 32 <<< k).toNat = b.toNat <<< k := by
    have fits : b.toNat <<< k < 2 ^ 32 := by
      calc b.toNat <<< k < 2 ^ (8 + k) := Nat.shiftLeft_lt b.isLt
        _ ≤ 2 ^ 32 := Nat.pow_le_pow_right (by decide) (by omega)
    rw [BitVec.toNat_shiftLeft, BitVec.toNat_setWidth_of_le (by decide), Nat.mod_eq_of_lt fits]
  simp only [le32, Formula.le32, BitVec.toNat_or, shifted _ 24 (by decide), shifted _ 8 (by decide),
    shifted _ 16 (by decide), BitVec.toNat_setWidth_of_le (show 8 ≤ 32 by decide)]

/-- The fields of what IDDEC unpacks are those of the formula's number (spec/30_encoding.md R61). -/
theorem unpackWord_le32_fields (b0 b1 b2 b3 : Byte) :
    Formula.fields (Formula.le32 b0 b1 b2 b3) (unpackWord (le32 b0 b1 b2 b3)) := by
  rw [← le32_toNat]
  exact unpackWord_fields _

/-! ## The input buffer -/

/-- The decoded input buffer is INLEN and the bytes of INBUF it covers (spec/30_encoding.md R65). -/
theorem bufferOf_inBufField (b : ReqBundle) : Formula.bufferOf b (inBufField b) := by
  refine ⟨rfl, by simp [inBufField, inlenField], fun k hk => ?_⟩
  have covered : k < min (inlenField b).toNat 12 := by simpa [inBufField] using hk
  simp [inBufField, inbufByte, covered]

/-- IDDEC accepts a buffer by its INLEN alone: one of 12 bytes or fewer is carried whole, and a longer one is
LengthError anyway (spec/30_encoding.md R65). -/
theorem onBuffer_iddec_of_inlen_ne {buf : InBuf} (wf : buf.wellFormed = true) (h : buf.inlen ≠ 4#8) :
    onBuffer buf iddec = .lengthError := by
  have length_eq : buf.bytes.length = min buf.inlen.toNat 12 := by simpa [InBuf.wellFormed, Config.inbufCap] using wf
  have not_four : buf.inlen.toNat ≠ 4 := fun four => h (BitVec.eq_of_toNat_eq four)
  rw [onBuffer_eq _ _ wf]
  split
  · exact iddec_of_length_ne _ (by omega)
  · rfl

/-! ## Clearing bit 31 -/

/-- Clearing bit 7 of byte 3 leaves every bit of the word below bit 31. -/
theorem le32_getLsbD_and_of_lt (b0 b1 b2 b3 : Byte) {i : Nat} (h : i < 31) :
    (le32 b0 b1 b2 (b3 &&& 0x7F#8)).getLsbD i = (le32 b0 b1 b2 b3).getLsbD i := by
  have below (j : Nat) (hj : j < 7) : (b3 &&& 0x7F#8).getLsbD j = b3.getLsbD j := by
    have kept : ∀ j < 7, (0x7F#8).getLsbD j = true := by decide
    rw [BitVec.getLsbD_and, kept j hj, Bool.and_true]
  rw [le32_getLsbD, le32_getLsbD, below (i - 24) (by omega)]

/-- It clears bit 31 itself. -/
theorem le32_getLsbD_and_31 (b0 b1 b2 b3 : Byte) : (le32 b0 b1 b2 (b3 &&& 0x7F#8)).getLsbD 31 = false := by
  rw [le32_getLsbD]
  simp

/-! ## The statements -/

/-- Settles O9: at both levels by whether the value is in range, which at the port is asked of VAL as a whole. -/
theorem idnewChecksTheRangeAndKeepsTheValue : Obligations.IdnewChecksTheRangeAndKeepsTheValue := by
  refine ⟨fun v e r => idnew_of_outOfRange r, fun v e r => idnew_of_inRange r, fun val ext rtr s out => ?_,
    fun val ext rtr s inside => ?_, fun b => decode_idnew⟩
  · rw [exec_eq_respond, portResponse, valueOperand, idnew_of_outOfRange rtr out]
    rfl
  · obtain ⟨x, hx, value, rfl, rfl⟩ := idnew_of_inRange rtr inside
    rw [exec_eq_respond, portResponse, valueOperand, hx, ← value, BitVec.ofNat_toNat, BitVec.setWidth_eq]
    rfl

/-- Settles O10: a valid identifier carries the range check, and IDNEW keeps its operands. -/
theorem idnewReturnsOnlyValidIdentifiers : Obligations.IdnewReturnsOnlyValidIdentifiers :=
  fun _ _ _ x h => ⟨(legalValue_iff x.id.value.toNat x.id.extended).1 x.valid, idnew_fields_of_ok h⟩

/-- Settles O11: the bytes and the word are the formula's, at the port of VAL itself. -/
theorem idencPacksTheWordLittleEndian : Obligations.IdencPacksTheWordLittleEndian := by
  refine ⟨idenc_eq_formula, fun val ext rtr s => ?_, fun b => decode_idenc⟩
  rw [exec_eq_respond, portResponse_idenc, idenc, idencWord_identifierOperand, bytesLe32_eq_formula, packWord_toNat,
    packWord_eq_ofNat]
  rfl

/-- Settles O12: only a length of 4 is accepted, at the port by INLEN, and the fields are those of the word read. -/
theorem iddecUnpacksExactlyFourBytes : Obligations.IddecUnpacksExactlyFourBytes := by
  refine ⟨iddec_of_length_ne, fun b0 b1 b2 b3 => ⟨_, rfl, unpackWord_le32_fields b0 b1 b2 b3⟩,
    fun buf s wf h => ?_, fun b0 b1 b2 b3 s => ⟨_, unpackWord_le32_fields b0 b1 b2 b3, exec_eq_respond _ s⟩,
    fun b op => ⟨_, decode_iddec op, bufferOf_inBufField b⟩⟩
  rw [exec_eq_respond, portResponse, onBuffer_iddec_of_inlen_ne wf h]
  rfl

/-- Settles O15: unpacking the word of the bytes reads back what was packed into it. -/
theorem iddecOfIdencIsTheIdentifier : Obligations.IddecOfIdencIsTheIdentifier := iddec_idenc

/-- Settles O16: IDDEC does not read bit 31, so it decodes the bytes with that bit cleared to the same identifier; the
word of those is packed again as it was. -/
theorem idencOfIddecClearsOnlyBitThirtyOne : Obligations.IdencOfIddecClearsOnlyBitThirtyOne := by
  intro b0 b1 b2 b3
  have cleared : unpackWord (le32 b0 b1 b2 b3) = unpackWord (le32 b0 b1 b2 (b3 &&& 0x7F#8)) :=
    unpackWord_congr fun _ h => (le32_getLsbD_and_of_lt b0 b1 b2 b3 h).symm
  refine ⟨_, rfl, ?_⟩
  rw [cleared, idenc, idencWord, packWord_unpackWord (le32_getLsbD_and_31 b0 b1 b2 b3), bytesLe32_le32]

/-- Settles O18: decoding makes IDENC injective, and bit 29 of its word is the extended flag. -/
theorem identifiersAreEqualIffTheirBytesAre : Obligations.IdentifiersAreEqualIffTheirBytesAre := by
  refine ⟨fun x y => idenc_injective.eq_iff.symm, fun x y => ⟨?_, ?_⟩, fun v r w w' hw hw' => ?_⟩
  · rintro rfl
    exact ⟨rfl, rfl, rfl⟩
  · rintro ⟨value, extended, remote⟩
    exact identifier_eq value extended remote
  · obtain rfl := Option.some.inj ((wordOfBytes_idenc _).symm.trans hw)
    obtain rfl := Option.some.inj ((wordOfBytes_idenc _).symm.trans hw')
    exact ⟨idencWord_getLsbD_29 _, idencWord_getLsbD_29 _⟩

end Sys2Proof.Machine

/-! # Proofs of the family 41_filter_mask.md

The layer first: the bits of MASK's word, and the intended predicate on an entry bit by bit. Then the statements. -/

namespace Sys2Proof.Machine

/-! ## The word of MASK -/

/-- MASK of an identifier's fields is IDENC's word (spec/41_filter_mask.md R102): both are the one packing formula. -/
theorem mask_eq_idencWord (id : Identifier) : mask id.value.toNat id.extended id.remote = idencWord id := rfl

/-- The mask of every value bit and the extended flag sets the bits below 30, and with the remote flag below 31
(spec/41_filter_mask.md R103, R107). -/
theorem mask_allValueBits_getLsbD (r : Bool) (j : Nat) :
    (mask 0x1FFFFFFF true r).getLsbD j = decide (j < 30 + r.toNat) := by
  have value : Nat.testBit 0x1FFFFFFF j = decide (j < 29) := canIdMask_testBit j
  rw [mask, packWord_getLsbD, value, Bool.eq_iff_iff]
  cases r with
  | false =>
    simp only [Bool.or_eq_true, Bool.and_eq_true, decide_eq_true_iff, Bool.false_eq_true, and_true, and_false, or_false,
      Bool.toNat_false]
    omega
  | true =>
    simp only [Bool.or_eq_true, Bool.and_eq_true, decide_eq_true_iff, and_true, Bool.toNat_true]
    omega

/-- ANDing with the full-acceptance mask leaves exactly the words with bit 31 clear unchanged (spec/41_filter_mask.md
R103). -/
theorem fullMask_and_eq_iff (w : Word) : mask 0x1FFFFFFF true true &&& w = w ↔ w.getLsbD 31 = false := by
  simp only [BitVec.eq_of_getLsbD_eq_iff, BitVec.getLsbD_and, mask_allValueBits_getLsbD, Bool.and_eq_right_iff_imp,
    decide_eq_true_iff, Bool.toNat_true]
  refine ⟨fun low => Bool.eq_false_of_not_eq_true fun set => absurd (low 31 (by decide) set) (by decide),
    fun clear j hj set => ?_⟩
  have not_top : j ≠ 31 := by
    rintro rfl
    exact Bool.false_ne_true (clear.symm.trans set)
  omega

/-! ## The intended predicate -/

/-- The predicate compares the words at the bits the mask sets (spec/41_filter_mask.md R105). -/
theorem intendedAccepts_iff (f : FilterEntry) (rx : Word) :
    f.intendedAccepts rx = true ↔
      ∀ j, j < 32 → f.maskWord.getLsbD j = true → rx.getLsbD j = f.identifierWord.getLsbD j := by
  rw [FilterEntry.intendedAccepts, beq_iff_eq, BitVec.eq_of_getLsbD_eq_iff]
  refine forall₂_congr fun j _ => ?_
  rw [BitVec.getLsbD_and, BitVec.getLsbD_and]
  cases f.maskWord.getLsbD j <;> simp

/-- An entry whose mask sets the bits below `k` compares the bits below `k`. -/
theorem intendedAccepts_iff_of_lowMask {f : FilterEntry} {k : Nat} (hk : k ≤ 32)
    (low : ∀ j, f.maskWord.getLsbD j = decide (j < k)) (rx : Word) :
    f.intendedAccepts rx = true ↔ ∀ j, j < k → rx.getLsbD j = f.identifierWord.getLsbD j := by
  simp only [intendedAccepts_iff, low, decide_eq_true_iff]
  exact ⟨fun h j hj => h j (by omega) hj, fun h j _ hj => h j hj⟩

/-- An entry with mask 0 compares no bit (spec/41_filter_mask.md R106). -/
theorem intendedAccepts_of_zeroMask (fid rx : Word) :
    FilterEntry.intendedAccepts { identifierWord := fid, maskWord := 0#32 } rx = true :=
  (intendedAccepts_iff_of_lowMask (k := 0) (by decide) (fun _ => BitVec.getLsbD_zero) rx).2 fun j h =>
    absurd h j.not_lt_zero

/-- The words of two identifiers agree below bit 30 exactly if the values and the extended flags agree
(spec/41_filter_mask.md R107). -/
theorem idencWord_agree_below_30_iff (x y : Identifier) :
    (∀ j, j < 30 → (idencWord y).getLsbD j = (idencWord x).getLsbD j) ↔ x.value = y.value ∧ x.extended = y.extended := by
  refine ⟨fun agree => ⟨BitVec.eq_of_getLsbD_eq fun j hj => ?_, ?_⟩, fun ⟨value, extended⟩ j hj => ?_⟩
  · rw [← idencWord_getLsbD_of_lt x hj, ← idencWord_getLsbD_of_lt y hj, agree j (by omega)]
  · rw [← idencWord_getLsbD_29 x, ← idencWord_getLsbD_29 y, agree 29 (by decide)]
  · obtain below | rfl : j < 29 ∨ j = 29 := by omega
    · rw [idencWord_getLsbD_of_lt y below, idencWord_getLsbD_of_lt x below, value]
    · rw [idencWord_getLsbD_29, idencWord_getLsbD_29, extended]

/-! ## The statements -/

/-- Settles O19: MASK is the packing formula, of VAL as a whole at the port. -/
theorem maskPacksAnyValueWithoutCheck : Obligations.MaskPacksAnyValueWithoutCheck := by
  refine ⟨packWord_toNat, fun val ext rtr s => ?_, fun b => decode_mask⟩
  rw [exec_eq_respond, portResponse, valueOperand, mask, packWord_eq_ofNat]
  rfl

/-- Settles O20: IDENC's bytes are those of its word, which is MASK's; what IDNEW returns has its operands as fields. -/
theorem maskAgreesWithIdencOnIdentifiers : Obligations.MaskAgreesWithIdencOnIdentifiers := by
  refine ⟨fun v e r x h => ?_, wordOfBytes_idenc⟩
  obtain ⟨rfl, rfl, rfl⟩ := idnew_fields_of_ok h
  exact wordOfBytes_idenc x.id

/-- Settles O21: the mask sets the bits below 31 and no other, and no encoded word has bit 31. -/
theorem fullAcceptanceMaskKeepsEveryEncodedWord : Obligations.FullAcceptanceMaskKeepsEveryEncodedWord := by
  refine ⟨by decide, fun w => (fullMask_and_eq_iff w).2, fun id w h => ?_, fun w set kept => ?_,
    fun fid => intendedAccepts_iff_of_lowMask (by decide) (mask_allValueBits_getLsbD true),
    intendedAccepts_of_zeroMask 0#32⟩
  · obtain rfl := Option.some.inj ((wordOfBytes_idenc id).symm.trans h)
    exact (fullMask_and_eq_iff _).2 (packWord_getLsbD_31 ..)
  · exact Bool.false_ne_true (((fullMask_and_eq_iff w).1 kept).symm.trans set)

/-- Settles O22: the mask 0x3FFFFFFF sets the bits below 30, where an identifier's word holds its value and its extended
flag. -/
theorem filterEntriesReadBitByBit : Obligations.FilterEntriesReadBitByBit := by
  refine ⟨intendedAccepts_iff, ⟨rfl, rfl⟩, intendedAccepts_of_zeroMask _, fun x y => ?_⟩
  rw [mask_eq_idencWord, mask_eq_idencWord]
  exact (intendedAccepts_iff_of_lowMask (by decide) (mask_allValueBits_getLsbD false) _).trans
    (idencWord_agree_below_30_iff x y)

end Sys2Proof.Machine

/-! # Proofs of the family 42_frame.md

The layer first: frames and their buffers at the operation level, then the operands of FRNEW, FRENC and FRDEC at the
port. Then the statements. -/

namespace Sys2Proof.Machine

/-! ## Frames and their buffers -/

/-- Frames are equal when their fields are: the length bound is no field of its own (spec/10_state.md R32). -/
theorem frame_eq_iff (f g : Frame) : f = g ↔ f.id = g.id ∧ f.data = g.data := by
  obtain ⟨id, data, _⟩ := f
  obtain ⟨id', data', _⟩ := g
  exact Frame.mk.injEq .. ▸ Iff.rfl

theorem frenc_injective : Function.Injective frenc := fun f g h => by
  have decoded : frdec (frenc f) = frdec (frenc g) := congrArg frdec h
  rw [frdec_frenc, frdec_frenc] at decoded
  exact Result.ok.inj decoded

theorem frenc_length (f : Frame) : (frenc f).length = 4 + f.data.length := List.length_append ..

/-- FRENC by the packing formula (spec/42_frame.md R124). -/
theorem frenc_eq_formula (f : Frame) :
    frenc f = Formula.bytes (Formula.word f.id.value.toNat f.id.extended f.id.remote) ++ f.data := by
  rw [frenc, idenc_eq_formula]

/-- IDDEC accepts no buffer but those of 4 bytes (spec/40_identifier.md R86). -/
theorem length_eq_of_iddec_ok {b : List Byte} {id : Identifier} (h : iddec b = .ok id) : b.length = 4 := by
  by_contra other
  rw [iddec_of_length_ne b other] at h
  cases h

/-- The buffers FRDEC accepts, and the payload they carry (spec/42_frame.md R125, R129). -/
theorem length_of_frdec_ok {b : List Byte} {f : Frame} (h : frdec b = .ok f) :
    4 ≤ b.length ∧ b.length ≤ 12 ∧ f.data.length = b.length - 4 := by
  obtain ⟨word, data⟩ := frdec_eq_ok_iff.1 h
  have four_le : 4 ≤ b.length := by
    rw [← length_eq_of_iddec_ok word]
    exact List.length_take_le' 4 b
  have payload : f.data.length = b.length - 4 := by rw [data, List.length_drop]
  have fits : f.data.length ≤ 8 := f.len_le
  omega

/-- FRDEC's length check (spec/42_frame.md R130). -/
theorem frdec_of_length_outside {b : List Byte} (h : b.length < 4 ∨ b.length > 12) : frdec b = .lengthError := by
  obtain short | long := h
  · rw [frdec, if_pos short]
  · exact frdec_of_length_gt long

/-- FRDEC of 4 bytes and a payload that fits: the identifier of the bytes' word, and the payload (spec/42_frame.md
R130). -/
theorem frdec_cons (b0 b1 b2 b3 : Byte) {d : List Byte} (h : d.length ≤ 8) :
    frdec (b0 :: b1 :: b2 :: b3 :: d) = .ok ⟨unpackWord (le32 b0 b1 b2 b3), d, h⟩ :=
  frdec_eq_ok_iff.2 ⟨rfl, rfl⟩

/-! ## The operands at the port -/

/-- IDENC's bytes at the port are the formula's of VAL itself (spec/30_encoding.md R61, R70). -/
theorem idenc_identifierOperand (val : BitVec 32) (ext rtr : Bool) :
    idenc (identifierOperand val ext rtr) = Formula.bytes (Formula.word val.toNat ext rtr) := by
  rw [idenc, idencWord_identifierOperand, bytesLe32_eq_formula, packWord_toNat]

section Buffer
variable {buf : InBuf}

/-- A well-formed buffer carries the bytes INLEN covers, at most 12 (spec/30_encoding.md R65). -/
theorem inBuf_wellFormed_iff : buf.wellFormed = true ↔ buf.bytes.length = min buf.inlen.toNat 12 :=
  beq_iff_eq

/-- A buffer that INLEN says is 12 bytes or fewer is carried whole, and is the operand. -/
theorem onBuffer_of_inlen_le {α : Type} (op : List Byte → Result α) (wf : buf.wellFormed = true)
    (h : buf.inlen.toNat ≤ 12) : onBuffer buf op = op buf.bytes := by
  rw [onBuffer_eq _ _ wf, if_pos h]

/-- A buffer too long to be carried is LengthError anyway, so an operation that refuses the buffers carried whole refuses
them all (spec/30_encoding.md R65). -/
theorem onBuffer_eq_lengthError {α : Type} {op : List Byte → Result α} (wf : buf.wellFormed = true)
    (h : buf.bytes.length = buf.inlen.toNat → op buf.bytes = .lengthError) : onBuffer buf op = .lengthError := by
  by_cases carried : buf.inlen.toNat ≤ 12
  · rw [onBuffer_of_inlen_le op wf carried]
    exact h ((inBuf_wellFormed_iff.1 wf).trans (Nat.min_eq_left carried))
  · rw [onBuffer_eq _ _ wf, if_neg carried]

/-- FRNEW's length check is on INLEN at the port (spec/42_frame.md R120, R126). -/
theorem onBuffer_frnew_of_inlen_gt (id : Identifier) (wf : buf.wellFormed = true) (h : buf.inlen.toNat > 8) :
    onBuffer buf (frnew id) = .lengthError :=
  onBuffer_eq_lengthError wf fun length_eq => frnew_of_length_gt (length_eq ▸ h)

/-- A payload of 8 bytes or fewer by INLEN is those bytes, and makes a frame. -/
theorem onBuffer_frnew_of_inlen_le (id : Identifier) (wf : buf.wellFormed = true) (h : buf.inlen.toNat ≤ 8) :
    ∃ fits, onBuffer buf (frnew id) = .ok ⟨id, buf.bytes, fits⟩ ∧ buf.bytes.length = buf.inlen.toNat := by
  have length_eq : buf.bytes.length = buf.inlen.toNat := by
    rw [inBuf_wellFormed_iff.1 wf]
    omega
  refine ⟨length_eq ▸ h, ?_, length_eq⟩
  rw [onBuffer_of_inlen_le _ wf (by omega), frnew_of_length_le]

/-- FRDEC's length check is on INLEN at the port (spec/42_frame.md R130). -/
theorem onBuffer_frdec_of_inlen_outside (wf : buf.wellFormed = true)
    (h : buf.inlen.toNat < 4 ∨ buf.inlen.toNat > 12) : onBuffer buf frdec = .lengthError :=
  onBuffer_eq_lengthError wf fun length_eq => frdec_of_length_outside (length_eq ▸ h)

end Buffer

/-- A buffer of 4 bytes and a payload that fits is carried whole and decoded. -/
theorem onBuffer_frdec_cons (b0 b1 b2 b3 : Byte) {d : List Byte} {inlen : BitVec 8} (h : d.length ≤ 8)
    (hlen : inlen.toNat = 4 + d.length) :
    onBuffer { inlen := inlen, bytes := b0 :: b1 :: b2 :: b3 :: d } frdec =
      .ok ⟨unpackWord (le32 b0 b1 b2 b3), d, h⟩ := by
  have wf : InBuf.wellFormed { inlen := inlen, bytes := b0 :: b1 :: b2 :: b3 :: d } = true := by
    rw [inBuf_wellFormed_iff, hlen]
    simp only [List.length_cons]
    omega
  rw [onBuffer_of_inlen_le frdec wf (by rw [hlen]; omega), frdec_cons]

/-! ## The statements -/

/-- Settles O23: at both levels by whether the payload fits, which at the port is asked of INLEN. -/
theorem frnewChecksThePayloadLength : Obligations.FrnewChecksThePayloadLength := by
  refine ⟨fun id d => frnew_of_length_gt, fun id d short => ⟨_, frnew_of_length_le id short, rfl, rfl⟩,
    fun val ext rtr buf s wf long => ?_, fun val ext rtr buf s wf short => ?_,
    fun b op => ⟨_, decode_frnew op, bufferOf_inBufField b⟩⟩
  · rw [exec_eq_respond, portResponse, onBuffer_frnew_of_inlen_gt _ wf long]
    rfl
  · obtain ⟨fits, frame, length_eq⟩ := onBuffer_frnew_of_inlen_le (identifierOperand val ext rtr) wf short
    rw [exec_eq_respond, portResponse, frame, ← length_eq]
    rfl

/-- Settles O24: FRENC's payload at the port is the one FRNEW accepts, and its bytes stand after the word of VAL. -/
theorem frencPutsThePayloadAfterTheWord : Obligations.FrencPutsThePayloadAfterTheWord := by
  refine ⟨frenc_eq_formula, fun val ext rtr buf s wf long => ?_, fun val ext rtr buf s wf short => ?_,
    fun b op => ⟨_, decode_frenc op, bufferOf_inBufField b⟩⟩
  · rw [exec_eq_respond, portResponse, onBuffer_frnew_of_inlen_gt _ wf long]
    rfl
  · obtain ⟨fits, frame, length_eq⟩ := onBuffer_frnew_of_inlen_le (identifierOperand val ext rtr) wf short
    rw [exec_eq_respond, portResponse, frame, Result.map, respondWith, Response.withBuffer, frenc_length, frenc,
      idenc_identifierOperand, length_eq]
    rfl

/-- Settles O25: at both levels by the length, which at the port is INLEN; the fields are those of the word read. -/
theorem frdecSplitsWordAndPayload : Obligations.FrdecSplitsWordAndPayload := by
  refine ⟨fun b => frdec_of_length_outside,
    fun b0 b1 b2 b3 d short => ⟨_, frdec_cons b0 b1 b2 b3 short, unpackWord_le32_fields b0 b1 b2 b3, rfl⟩,
    fun buf s wf outside => ?_,
    fun b0 b1 b2 b3 d inlen s short hlen => ⟨_, unpackWord_le32_fields b0 b1 b2 b3, ?_⟩,
    fun b op => ⟨_, decode_frdec op, bufferOf_inBufField b⟩⟩
  · rw [exec_eq_respond, portResponse, onBuffer_frdec_of_inlen_outside wf outside]
    rfl
  · rw [exec_eq_respond, portResponse, onBuffer_frdec_cons b0 b1 b2 b3 short hlen]
    rfl

/-- Settles O26: the word is 4 bytes, and a frame's payload is at most 8. -/
theorem frameBuffersAreFourToTwelveBytes : Obligations.FrameBuffersAreFourToTwelveBytes := by
  refine ⟨fun f => ?_, fun b f => length_of_frdec_ok⟩
  have payload : f.data.length ≤ 8 := f.len_le
  have length_eq := frenc_length f
  omega

/-- Settles O28: the first 4 bytes decode to the identifier, and the rest is the payload. -/
theorem frdecOfFrencIsTheFrame : Obligations.FrdecOfFrencIsTheFrame := frdec_frenc

/-- Settles O29: IDENC of IDDEC clears the bit in the first 4 bytes, and the payload stays. -/
theorem frencOfFrdecClearsOnlyBitThirtyOne : Obligations.FrencOfFrdecClearsOnlyBitThirtyOne := by
  intro b0 b1 b2 b3 d short
  obtain ⟨id, decoded, cleared⟩ := idencOfIddecClearsOnlyBitThirtyOne b0 b1 b2 b3
  refine ⟨⟨id, d, short⟩, frdec_eq_ok_iff.2 ⟨decoded, rfl⟩, ?_⟩
  rw [frenc, cleared]
  rfl

/-- Settles O30: decoding makes FRENC injective, and a frame has no field but identifier and payload. -/
theorem framesAreEqualIffTheirBuffersAre : Obligations.FramesAreEqualIffTheirBuffersAre :=
  ⟨fun _ _ => frenc_injective.eq_iff.symm, frame_eq_iff⟩

end Sys2Proof.Machine

/-! # Proofs of the family 60_exceptions.md

The layer first: which outcome of an operation raises which error, the outcomes that are errors, at the operation level
and for a buffer at the port, what a response without a result holds, and that no step faults. Then the statements. -/

namespace Sys2Proof.Machine

/-! ## The error of a response -/

/-- A response's ERR is OK or an error of its operation's row (spec/30_encoding.md R69). -/
theorem portResponse_err (i : Instr) : (portResponse i).err = .ok ∨ (portResponse i).err ∈ errorsOf i :=
  (legalFor_iff.1 (portResponse_legalFor i)).imp And.left fun ⟨_, row, _⟩ => row

/-- Where the row has one error, no other is raised. -/
theorem portResponse_err_ne {i : Instr} {e own : ErrStatus} (row : errorsOf i = [own]) (error : e ≠ .ok)
    (other : e ≠ own) : (portResponse i).err ≠ e := by
  rintro rfl
  rcases portResponse_err i with ok | listed
  · exact error ok
  · rw [row] at listed
    exact other (List.mem_singleton.1 listed)

@[simp] theorem defineFrame_err (f : Frame) (r : Response) : (defineFrame f r).err = r.err := rfl

section RespondWith
variable {α : Type} {define : α → Response → Response}

/-- RANGE is the error of a RangeError alone, where a result's fields leave ERR as it is (spec/60_exceptions.md
R140). -/
theorem respondWith_err_eq_range_iff (keeps : ∀ a r, (define a r).err = r.err) (res : Result α) :
    (respondWith define res).err = .range ↔ res = .rangeError := by
  cases res with
  | ok a => simp [respondWith, keeps]
  | rangeError => simp [respondWith, errorResponse]
  | lengthError => simp [respondWith, errorResponse]

/-- LENGTH is the error of a LengthError alone (spec/60_exceptions.md R141). -/
theorem respondWith_err_eq_length_iff (keeps : ∀ a r, (define a r).err = r.err) (res : Result α) :
    (respondWith define res).err = .length ↔ res = .lengthError := by
  cases res with
  | ok a => simp [respondWith, keeps]
  | rangeError => simp [respondWith, errorResponse]
  | lengthError => simp [respondWith, errorResponse]

end RespondWith

/-! ## The outcomes that are errors -/

theorem idnew_eq_rangeError_iff (v : Nat) (e r : Bool) : idnew v e r = .rangeError ↔ Formula.outOfRange v e := by
  refine ⟨fun error => by_contra fun inside => ?_, idnew_of_outOfRange r⟩
  obtain ⟨x, ok, -⟩ := idnew_of_inRange r inside
  exact nomatch ok.symm.trans error

theorem iddec_eq_lengthError_iff (b : List Byte) : iddec b = .lengthError ↔ b.length ≠ 4 := by
  refine ⟨fun error four => ?_, iddec_of_length_ne b⟩
  obtain ⟨id, ok⟩ := iddec_ok_of_length_eq four
  exact nomatch ok.symm.trans error

theorem frnew_eq_lengthError_iff (id : Identifier) (d : List Byte) : frnew id d = .lengthError ↔ d.length > 8 := by
  refine ⟨fun error => Nat.lt_of_not_le fun short => ?_, frnew_of_length_gt⟩
  exact nomatch (frnew_of_length_le id short).symm.trans error

theorem frdec_eq_lengthError_iff (b : List Byte) : frdec b = .lengthError ↔ b.length < 4 ∨ b.length > 12 := by
  refine ⟨fun error => by_contra fun inside => ?_, frdec_of_length_outside⟩
  obtain ⟨id, word⟩ := iddec_ok_of_length_eq (List.length_take_of_le (show 4 ≤ b.length by omega))
  have short : (b.drop 4).length ≤ 8 := by
    rw [List.length_drop]
    omega
  exact nomatch (frdec_eq_ok_iff.2 ⟨word, rfl⟩ : frdec b = .ok ⟨id, b.drop 4, short⟩).symm.trans error

theorem map_eq_lengthError_iff {α β : Type} {r : Result α} {f : α → β} : r.map f = .lengthError ↔ r = .lengthError := by
  cases r <;> simp [Result.map]

/-- A check of the buffer's length is a check of INLEN at the port, where it refuses every length that the port does not
carry (spec/30_encoding.md R65). -/
theorem onBuffer_eq_lengthError_iff {α : Type} {op : List Byte → Result α} {refused : Nat → Prop} {buf : InBuf}
    (wf : buf.wellFormed = true) (check : ∀ b, op b = .lengthError ↔ refused b.length)
    (long : ∀ n, n > 12 → refused n) : onBuffer buf op = .lengthError ↔ refused buf.inlen.toNat := by
  by_cases carried : buf.inlen.toNat ≤ 12
  · rw [onBuffer_of_inlen_le op wf carried, check, inBuf_wellFormed_iff.1 wf, Nat.min_eq_left carried]
  · rw [onBuffer_eq _ _ wf, if_neg carried]
    exact iff_of_true rfl (long _ (Nat.lt_of_not_le carried))

/-- FRNEW and FRENC refuse the same payloads at the port (spec/42_frame.md R126). -/
theorem onBuffer_frnew_eq_lengthError_iff (id : Identifier) {buf : InBuf} (wf : buf.wellFormed = true) :
    onBuffer buf (frnew id) = .lengthError ↔ buf.inlen.toNat > 8 :=
  onBuffer_eq_lengthError_iff (refused := (· > 8)) wf (frnew_eq_lengthError_iff id) fun _ long => by omega

/-! ## No partial result, and no fault -/

/-- A response without a result has no field but ERR (spec/60_exceptions.md R144). -/
theorem read_eq_none_of_noResult {r : Response} (h : r.noResult = true) {f : Field} (hf : f ≠ .err) :
    r.read f = none := by
  obtain ⟨oval, oext, ortr, oword, olen, obuf⟩ := noResult_iff.1 h
  cases f with
  | err => exact absurd rfl hf
  | oval => simp [Response.read, oval]
  | oext => simp [Response.read, oext]
  | ortr => simp [Response.read, ortr]
  | oword => simp [Response.read, oword]
  | olen => simp [Response.read, olen]
  | obuf k => simp [Response.read, obuf]

/-- No step faults: nothing is in progress, or the request served next is answered or refused (spec/60_exceptions.md
R157). -/
theorem step_ne_fault (s : State) (e : Fault) : step s ≠ .fault e := by
  cases hq : s.requests with
  | nil =>
    rw [step_idle hq]
    exact nofun
  | cons q rest =>
    cases hd : decode q.bundle with
    | ok i =>
      rw [step_delivers hq hd]
      exact nofun
    | error d =>
      cases d
      rw [step_request hq, hd]
      exact nofun

/-! ## The statements -/

/-- Settles O33: the row of `errorsOf` excludes the other error, and the operation's length or range check says when its
own is raised. -/
theorem errorsAreExactlyThoseOfTheTable : Obligations.ErrorsAreExactlyThoseOfTheTable := by
  refine fun i s wf => ⟨portResponse i, exec_eq_respond i s, ?_⟩
  cases i with
  | idnew val ext rtr =>
    refine ⟨?_, portResponse_err_ne rfl nofun nofun⟩
    rw [portResponse, respondWith_err_eq_range_iff fun (v : ValidIdentifier) r => withIdentifier_err r v.id]
    exact idnew_eq_rangeError_iff val.toNat ext rtr
  | idenc val ext rtr => exact (portResponse_err (.idenc val ext rtr)).resolve_right List.not_mem_nil
  | iddec buf =>
    refine ⟨?_, portResponse_err_ne rfl nofun nofun⟩
    rw [portResponse, respondWith_err_eq_length_iff fun id r => withIdentifier_err r id]
    exact onBuffer_eq_lengthError_iff (refused := (· ≠ 4)) wf iddec_eq_lengthError_iff fun _ long => by omega
  | mask val ext rtr => exact (portResponse_err (.mask val ext rtr)).resolve_right List.not_mem_nil
  | frnew val ext rtr buf =>
    refine ⟨?_, portResponse_err_ne rfl nofun nofun⟩
    rw [portResponse, respondWith_err_eq_length_iff defineFrame_err, onBuffer_frnew_eq_lengthError_iff _ wf]
  | frenc val ext rtr buf =>
    refine ⟨?_, portResponse_err_ne rfl nofun nofun⟩
    rw [portResponse, respondWith_err_eq_length_iff fun b r => withBuffer_err r b, map_eq_lengthError_iff,
      onBuffer_frnew_eq_lengthError_iff _ wf]
  | frdec buf =>
    refine ⟨?_, portResponse_err_ne rfl nofun nofun⟩
    rw [portResponse, respondWith_err_eq_length_iff defineFrame_err]
    exact onBuffer_eq_lengthError_iff (refused := fun n => n < 4 ∨ n > 12) wf frdec_eq_lengthError_iff fun _ => .inr

/-- Settles O34: a legal response that is not OK has no result. -/
theorem errorGivesNoPartialResult : Obligations.ErrorGivesNoPartialResult := by
  refine fun i s => ⟨portResponse i, exec_eq_respond i s, fun error f hf => ?_⟩
  obtain ⟨-, -, empty⟩ := (legalFor_iff.1 (portResponse_legalFor i)).resolve_left fun ok => error ok.1
  exact read_eq_none_of_noResult empty hf

/-- Settles O41: every code but the reserved one decodes, and then the request gets its delivery. -/
theorem noRequestIsStuck : Obligations.NoRequestIsStuck := by
  refine ⟨fun s q rest hq hop => ?_, step_ne_fault⟩
  obtain ⟨i, hd⟩ := decode_ok_of_not_reserved hop
  exact ⟨q.delivery.response, step_delivers hq hd⟩

/-- Settles O42: the delivery's response looks at the bundle alone. -/
theorem anyRequesterGetsTheSameResponse : Obligations.AnyRequesterGetsTheSameResponse := by
  intro b hop
  obtain ⟨i, hd⟩ := decode_ok_of_not_reserved hop
  refine ⟨portResponse i, fun who => ?_⟩
  rw [step_alone hop, delivery_of_decode hd]

end Sys2Proof.Machine

/-! # Proofs of the family 70_reset_and_hazards.md

The layer first: what asserting reset does, what a requester reads after it, and a request issued after it. Then the
statement. -/

namespace Sys2Proof.Machine

/-! ## The state after reset -/

@[simp] theorem reset_apply (s : State) : Move.reset.apply s = .next State.reset := rfl

@[simp] theorem reset_responsesTo (who : Nat) : State.reset.responsesTo who = [] := rfl

/-- After reset no requester has a response to read (spec/70_reset_and_hazards.md R160; log 6). -/
theorem read_apply_reset (who n : Nat) (f : Field) : (Move.read who n f).apply State.reset = .fault (.noValue f) :=
  read_apply_of_error (readField_of_no_response (by simp))

/-- Nothing is in progress after reset, so wherever the next request is placed it stands alone
(spec/70_reset_and_hazards.md R161). -/
theorem issue_reset (place : Nat) (q : Request) :
    issue place q State.reset = { requests := [q], responses := [] } := by
  simp [issue]

/-! ## The statement -/

/-- Settles O47: after reset nothing is in progress and no response is held, so reads fault, steps are idle, and the
next request gets its delivery, which is the same from any state. -/
theorem resetForgetsEverything : Obligations.ResetForgetsEverything := by
  constructor
  · exact fun s => ⟨State.reset, reset_apply s, read_apply_reset, fun k => idleBlockChangesNothing _ k reset_requests⟩
  · intro s t q place h hop
    obtain rfl : State.reset = t := Host.Outcome.next.inj h
    obtain ⟨i, hd⟩ := decode_ok_of_not_reserved hop
    refine ⟨q.delivery.response, ?_, fun u => step_delivers rfl hd⟩
    rw [issue_reset]
    exact step_alone hop

end Sys2Proof.Machine
